-- ==== Sys2Proof/Word.lean ====
section
/-!
DEFINITION. The word types of the CORE (spec/00_scope.md R8, R11).
-/

namespace Sys2Proof

/-- `Word16`: a register, a memory cell, an address or an instruction (R8). `+`, `&&&` and `~~~` on it are the
modulo-65536 and bitwise operations of R11. -/
abbrev Word := BitVec 16

/-- A byte of the console streams or of an image (R29, R132). -/
abbrev Byte := BitVec 8

/-- A 3-bit register selector: the value i selects Ri, and every value is legal (R57). -/
abbrev Reg := BitVec 3

end Sys2Proof
end

