-- ==== Sys2Proof/Syntax.lean ====
section
/-!
DEFINITION. The instructions: one constructor per row of spec/opcode_table.json, with the fields of 30_encoding.md
R56. The fields marked `ign` there are read by nothing (R65) and stand in no constructor (DESIGN CHOICE, log entry 4).
-/

namespace Sys2Proof

/-- The sixteen opcodes, the values of instr[15:12] (R55). -/
inductive Opcode where
  | br | add | ld | st | jsr | and | ldr | str | rti | not | ldi | sti | jmp | res | lea | trap
deriving DecidableEq, Repr

/-- One constructor per row of the opcode table. `ret` specialises `jmp`; `getc` to `halt` and `trapUndefined`
specialise `trap` (spec/INDEX.md; DESIGN CHOICE, log entry 5). -/
inductive Instr where
  /-- BR, R87. -/
  | br (n z p : Bool) (off : BitVec 9)
  /-- ADD, register form, R82. -/
  | addReg (dr sr1 sr2 : Reg)
  /-- ADD, immediate form, R83. -/
  | addImm (dr sr1 : Reg) (imm : BitVec 5)
  /-- LD, R92. -/
  | ld (dr : Reg) (off : BitVec 9)
  /-- ST, R95. -/
  | st (sr : Reg) (off : BitVec 9)
  /-- JSR, R90. -/
  | jsr (off : BitVec 11)
  /-- JSRR, R91. -/
  | jsrr (base : Reg)
  /-- AND, register form, R84. -/
  | andReg (dr sr1 sr2 : Reg)
  /-- AND, immediate form, R85. -/
  | andImm (dr sr1 : Reg) (imm : BitVec 5)
  /-- LDR, R94. -/
  | ldr (dr base : Reg) (off : BitVec 6)
  /-- STR, R97. -/
  | str (sr base : Reg) (off : BitVec 6)
  /-- RTI, reserved, R111. -/
  | rti
  /-- NOT, R86. -/
  | not (dr sr : Reg)
  /-- LDI, R93. -/
  | ldi (dr : Reg) (off : BitVec 9)
  /-- STI, R96. -/
  | sti (sr : Reg) (off : BitVec 9)
  /-- RET: JMP with BaseR = R7, R89. -/
  | ret
  /-- JMP, R88. -/
  | jmp (base : Reg)
  /-- RES, reserved, R112. -/
  | res
  /-- LEA, R98. -/
  | lea (dr : Reg) (off : BitVec 9)
  /-- TRAP with any vector, the base row, R99. -/
  | trap (v : BitVec 8)
  /-- GETC: TRAP x20, R101. -/
  | getc
  /-- OUT: TRAP x21, R102. -/
  | out
  /-- PUTS: TRAP x22, R103. -/
  | puts
  /-- IN: TRAP x23, R104. -/
  | inp
  /-- PUTSP: TRAP x24, R105. -/
  | putsp
  /-- HALT: TRAP x25, R106. -/
  | halt
  /-- TRAP with a vector outside 0x20 to 0x25, R107. -/
  | trapUndefined (v : BitVec 8)
deriving DecidableEq, Repr

end Sys2Proof
end

