-- ==== Sys2Proof/WellFormed.lean ====
section
/-!
DEFINITION. Which terms of Instr are well formed: the ones that name a word by the MOST SPECIFIC row of the opcode
table that matches it (spec/INDEX.md, "Reading opcode_table.json"; DESIGN CHOICE, log entry 5). Every register number,
immediate and offset is legal (R57 to R61); the checks are about rows that specialise another row.
-/

namespace Sys2Proof

/-- The trap vectors with a built-in routine: 0x20 to 0x25 (R8, R100). -/
def vectorDefined (v : BitVec 8) : Bool := decide (0x20#8 ≤ v ∧ v ≤ 0x25#8)

/-- A JMP through R7 is the row RET; a TRAP word is one of the six routines' rows or TRAP-undefined; TRAP-undefined
covers the vectors with no routine. -/
def Instr.wellFormed : Instr → Bool
  | .jmp base => base != 7#3
  | .trap _ => false
  | .trapUndefined v => !vectorDefined v
  | .br _ _ _ _ => true
  | .addReg _ _ _ => true
  | .addImm _ _ _ => true
  | .ld _ _ => true
  | .st _ _ => true
  | .jsr _ => true
  | .jsrr _ => true
  | .andReg _ _ _ => true
  | .andImm _ _ _ => true
  | .ldr _ _ _ => true
  | .str _ _ _ => true
  | .rti => true
  | .not _ _ => true
  | .ldi _ _ => true
  | .sti _ _ => true
  | .ret => true
  | .res => true
  | .lea _ _ => true
  | .getc => true
  | .out => true
  | .puts => true
  | .inp => true
  | .putsp => true
  | .halt => true

end Sys2Proof
end

