-- ==== Sys2Proof/Decode.lean ====
section
/-!
DEFINITION. Decoding and encoding (spec/30_encoding.md). `decode` is total on the 65536 words (R66); `decodeBytes`
reads one big-endian word from bytes, as an image stores it (R132), and rejects by name; `encode` is written from the
same formats (R56). The opcode numbers and field positions are the spec's decision D1 (UNVERIFIED, log entry 3).
-/

namespace Sys2Proof

/-- instr[15:12] as a name (R55). -/
def opcodeOfBits (b : BitVec 4) : Opcode :=
  match b with
  | 0x0#4 => .br
  | 0x1#4 => .add
  | 0x2#4 => .ld
  | 0x3#4 => .st
  | 0x4#4 => .jsr
  | 0x5#4 => .and
  | 0x6#4 => .ldr
  | 0x7#4 => .str
  | 0x8#4 => .rti
  | 0x9#4 => .not
  | 0xA#4 => .ldi
  | 0xB#4 => .sti
  | 0xC#4 => .jmp
  | 0xD#4 => .res
  | 0xE#4 => .lea
  | _     => .trap

/-- The value of instr[15:12] that a name stands for (R55). -/
def opcodeBits : Opcode → BitVec 4
  | .br => 0x0#4
  | .add => 0x1#4
  | .ld => 0x2#4
  | .st => 0x3#4
  | .jsr => 0x4#4
  | .and => 0x5#4
  | .ldr => 0x6#4
  | .str => 0x7#4
  | .rti => 0x8#4
  | .not => 0x9#4
  | .ldi => 0xA#4
  | .sti => 0xB#4
  | .jmp => 0xC#4
  | .res => 0xD#4
  | .lea => 0xE#4
  | .trap => 0xF#4

/-- The opcode field, instr[15:12] (R54). -/
def fieldOpcode (w : Word) : BitVec 4 := w.extractLsb' 12 4

/-- DR or SR, instr[11:9] (R57). -/
def fieldDR (w : Word) : Reg := w.extractLsb' 9 3

/-- SR1 or BaseR, instr[8:6] (R57). -/
def fieldSR1 (w : Word) : Reg := w.extractLsb' 6 3

/-- SR2, instr[2:0] (R57). -/
def fieldSR2 (w : Word) : Reg := w.extractLsb' 0 3

/-- imm5, instr[4:0] (R58). -/
def fieldImm5 (w : Word) : BitVec 5 := w.extractLsb' 0 5

/-- offset6, instr[5:0] (R59). -/
def fieldOffset6 (w : Word) : BitVec 6 := w.extractLsb' 0 6

/-- PCoffset9, instr[8:0] (R60). -/
def fieldOffset9 (w : Word) : BitVec 9 := w.extractLsb' 0 9

/-- PCoffset11, instr[10:0] (R61). -/
def fieldOffset11 (w : Word) : BitVec 11 := w.extractLsb' 0 11

/-- trapvect8, instr[7:0] (R62). -/
def fieldTrapvect8 (w : Word) : BitVec 8 := w.extractLsb' 0 8

/-- The immediate flag of ADD and AND, instr[5:5] (R64). -/
def fieldImmediateFlag (w : Word) : Bool := w.getLsbD 5

/-- The long flag of opcode 0x4, instr[11:11] (R64). -/
def fieldLongFlag (w : Word) : Bool := w.getLsbD 11

/-- The most specific row of a TRAP word, by its vector (R100). -/
def decodeTrap (v : BitVec 8) : Instr :=
  if v = 0x20#8 then .getc
  else if v = 0x21#8 then .out
  else if v = 0x22#8 then .puts
  else if v = 0x23#8 then .inp
  else if v = 0x24#8 then .putsp
  else if v = 0x25#8 then .halt
  else .trapUndefined v

/-- The most specific row of a JMP word, by its BaseR (R88, R89). -/
def decodeJmp (base : Reg) : Instr := if base = 7#3 then .ret else .jmp base

/-- Every 16-bit word decodes to exactly one instruction (R66, R74), whatever its ignored bits hold (R65; UNVERIFIED,
log entry 14). -/
def decode (w : Word) : Instr :=
  match opcodeOfBits (fieldOpcode w) with
  | .br => .br (w.getLsbD 11) (w.getLsbD 10) (w.getLsbD 9) (fieldOffset9 w)
  | .add =>
    if fieldImmediateFlag w then .addImm (fieldDR w) (fieldSR1 w) (fieldImm5 w)
    else .addReg (fieldDR w) (fieldSR1 w) (fieldSR2 w)
  | .ld => .ld (fieldDR w) (fieldOffset9 w)
  | .st => .st (fieldDR w) (fieldOffset9 w)
  | .jsr => if fieldLongFlag w then .jsr (fieldOffset11 w) else .jsrr (fieldSR1 w)
  | .and =>
    if fieldImmediateFlag w then .andImm (fieldDR w) (fieldSR1 w) (fieldImm5 w)
    else .andReg (fieldDR w) (fieldSR1 w) (fieldSR2 w)
  | .ldr => .ldr (fieldDR w) (fieldSR1 w) (fieldOffset6 w)
  | .str => .str (fieldDR w) (fieldSR1 w) (fieldOffset6 w)
  | .rti => .rti
  | .not => .not (fieldDR w) (fieldSR1 w)
  | .ldi => .ldi (fieldDR w) (fieldOffset9 w)
  | .sti => .sti (fieldDR w) (fieldOffset9 w)
  | .jmp => decodeJmp (fieldSR1 w)
  | .res => .res
  | .lea => .lea (fieldDR w) (fieldOffset9 w)
  | .trap => decodeTrap (fieldTrapvect8 w)

/-- Why bytes are not an instruction. -/
inductive DecodeError where
  /-- Fewer than the two bytes of one word (R53). -/
  | truncated
deriving DecidableEq, Repr

/-- One instruction from bytes in the image's order, high byte first (R132; DESIGN CHOICE, log entry 20), with the
bytes left over. -/
def decodeBytes : List Byte → Except DecodeError (Instr × List Byte)
  | hi :: lo :: rest => .ok (decode (hi ++ lo), rest)
  | _ => .error .truncated

/-- The instruction a word of spec/opcode_table.json stands for. A row has 16 bits; a number that does not fit in one
word is no instruction (R53; DESIGN CHOICE, log entry 20). -/
def decodeTableWord (nbits w : Nat) : Option Instr :=
  if nbits ≤ 16 ∧ w < 0x10000 then some (decode (BitVec.ofNat 16 w)) else none

/-- The opcode of an instruction: its bits 15:12 (R55). -/
def Instr.opcode : Instr → Opcode
  | .br _ _ _ _ => .br
  | .addReg _ _ _ => .add
  | .addImm _ _ _ => .add
  | .ld _ _ => .ld
  | .st _ _ => .st
  | .jsr _ => .jsr
  | .jsrr _ => .jsr
  | .andReg _ _ _ => .and
  | .andImm _ _ _ => .and
  | .ldr _ _ _ => .ldr
  | .str _ _ _ => .str
  | .rti => .rti
  | .not _ _ => .not
  | .ldi _ _ => .ldi
  | .sti _ _ => .sti
  | .ret => .jmp
  | .jmp _ => .jmp
  | .res => .res
  | .lea _ _ => .lea
  | .trap _ => .trap
  | .getc => .trap
  | .out => .trap
  | .puts => .trap
  | .inp => .trap
  | .putsp => .trap
  | .halt => .trap
  | .trapUndefined _ => .trap

/-- A field at its place in a word: its bit 0 at bit `lo` (R10, R56). -/
def placeField {n : Nat} (f : BitVec n) (lo : Nat) : Word := f.setWidth 16 <<< lo

/-- The operand fields at their places, with the bracketed values of R56 in the ignored bits (RES: zeros; DESIGN
CHOICE, log entry 4). -/
def encodeOperands : Instr → Word
  | .br n z p off =>
    placeField (BitVec.ofBool n) 11 ||| placeField (BitVec.ofBool z) 10 ||| placeField (BitVec.ofBool p) 9 |||
      placeField off 0
  | .addReg dr sr1 sr2 => placeField dr 9 ||| placeField sr1 6 ||| placeField sr2 0
  | .addImm dr sr1 imm => placeField dr 9 ||| placeField sr1 6 ||| placeField 1#1 5 ||| placeField imm 0
  | .ld dr off => placeField dr 9 ||| placeField off 0
  | .st sr off => placeField sr 9 ||| placeField off 0
  | .jsr off => placeField 1#1 11 ||| placeField off 0
  | .jsrr base => placeField base 6
  | .andReg dr sr1 sr2 => placeField dr 9 ||| placeField sr1 6 ||| placeField sr2 0
  | .andImm dr sr1 imm => placeField dr 9 ||| placeField sr1 6 ||| placeField 1#1 5 ||| placeField imm 0
  | .ldr dr base off => placeField dr 9 ||| placeField base 6 ||| placeField off 0
  | .str sr base off => placeField sr 9 ||| placeField base 6 ||| placeField off 0
  | .rti => 0x0000#16
  | .not dr sr => placeField dr 9 ||| placeField sr 6 ||| placeField 0b111111#6 0
  | .ldi dr off => placeField dr 9 ||| placeField off 0
  | .sti sr off => placeField sr 9 ||| placeField off 0
  | .ret => placeField 7#3 6
  | .jmp base => placeField base 6
  | .res => 0x0000#16
  | .lea dr off => placeField dr 9 ||| placeField off 0
  | .trap v => placeField v 0
  | .getc => placeField 0x20#8 0
  | .out => placeField 0x21#8 0
  | .puts => placeField 0x22#8 0
  | .inp => placeField 0x23#8 0
  | .putsp => placeField 0x24#8 0
  | .halt => placeField 0x25#8 0
  | .trapUndefined v => placeField v 0

/-- The word of an instruction: the opcode at bits 15:12, then the operand fields (R54, R56). -/
def encode (i : Instr) : Word := placeField (opcodeBits i.opcode) 12 ||| encodeOperands i

/-- The most specific row for the same word: a JMP through R7 is RET, a TRAP is named by its vector (spec/INDEX.md;
DESIGN CHOICE, log entry 5). -/
def Instr.specialise : Instr → Instr
  | .jmp base => decodeJmp base
  | .trap v => decodeTrap v
  | .trapUndefined v => decodeTrap v
  | .br n z p off => .br n z p off
  | .addReg dr sr1 sr2 => .addReg dr sr1 sr2
  | .addImm dr sr1 imm => .addImm dr sr1 imm
  | .ld dr off => .ld dr off
  | .st sr off => .st sr off
  | .jsr off => .jsr off
  | .jsrr base => .jsrr base
  | .andReg dr sr1 sr2 => .andReg dr sr1 sr2
  | .andImm dr sr1 imm => .andImm dr sr1 imm
  | .ldr dr base off => .ldr dr base off
  | .str sr base off => .str sr base off
  | .rti => .rti
  | .not dr sr => .not dr sr
  | .ldi dr off => .ldi dr off
  | .sti sr off => .sti sr off
  | .ret => .ret
  | .res => .res
  | .lea dr off => .lea dr off
  | .getc => .getc
  | .out => .out
  | .puts => .puts
  | .inp => .inp
  | .putsp => .putsp
  | .halt => .halt

end Sys2Proof
end

