-- ==== Sys2Proof/Config.lean ====
section
/-!
DEFINITION. What the CORE fixes as parameters (spec/00_scope.md R8) and what it leaves open (R9): the free values are
constants without a body, so that no proof can use a value of theirs.
-/

namespace Sys2Proof.Config

/-- PC at start (R31). -/
def startPC : Word := 0x3000#16

/-- KBSR, the keyboard status register's address (R8, R25). -/
def kbsr : Word := 0xFE00#16

/-- KBDR, the keyboard data register's address (R8, R25). -/
def kbdr : Word := 0xFE02#16

/-- One past the last address: where a string scan leaves memory (R108). -/
def memoryEnd : Nat := 0x10000

/-- Free value: the text the IN routine writes before it reads (R9, D11; DESIGN CHOICE, log entry 10). -/
opaque inPrompt : List Byte

/-- Free value: the text, possibly empty, the HALT routine writes (R9, D12; DESIGN CHOICE, log entry 10). -/
opaque haltMessage : List Byte

/-- Free value: the host's answer at its n-th poll, where the state lists no answer (R9, D7; DESIGN CHOICE, log entry
6). -/
opaque keyAvailable : Nat → Bool

/-- Free value: the n-th character of the host's input stream, where the state lists no character (R9, D8; DESIGN
CHOICE, log entry 7). -/
opaque hostChar : Nat → Word

end Sys2Proof.Config
end

