-- ==== Sys2Proof/Machine/State.lean ====
section
/-!
DEFINITION. The state (spec/10_state.md), the host's side of it (R29, R127), and the reasons a step can stop.
-/

namespace Sys2Proof.Machine

/-- The condition code: exactly one of NEGATIVE, ZERO, POSITIVE at all times (R22). -/
inductive Cond where
  | n | z | p
deriving DecidableEq, Repr

/-- The fatal faults of the CORE, and no others (R113). All are the spec's own, so each is safe. -/
inductive FaultReason where
  /-- Raised by RTI (opcode 0x8) and RES (opcode 0xD), always (R111, R112). Safe. -/
  | invalidOpcode (opcode : BitVec 4)
  /-- Raised by TRAP with a vector outside 0x20 to 0x25, after R7 is written (R107; UNVERIFIED, log entry 13). Safe. -/
  | undefinedTrapVector (v : BitVec 8)
  /-- Raised by PUTS and PUTSP when the scan reaches 0xFE00 or passes 0xFFFF (R108; UNVERIFIED, log entry 12). Safe. -/
  | stringScanOutOfRange (a : Nat)
deriving DecidableEq, Repr

/-- The run state (R24). -/
inductive RunState where
  /-- The loop fetches the next instruction. -/
  | running
  /-- Terminal: the HALT trap ran. -/
  | halted
  /-- Terminal: a fatal condition. -/
  | faulted (reason : FaultReason)
  /-- Terminal: the host cancelled the run. -/
  | cancelled
deriving DecidableEq, Repr

/-- Memory: (address, word) cells, addresses strictly rising, no cell that holds 0x0000, which is what an unlisted
address reads as (R25, R33). The CORE's smallest unit is the 16-bit word (R40; DESIGN CHOICE, log entry 2). -/
abbrev Memory := List (Nat × Word)

/-- The host's side: the streams of R29 and what the host will answer (R127). Not CORE state (R28). -/
structure HostSide where
  /-- The host's answers to the polls to come; where it is empty an answer is a free value (D7; DESIGN CHOICE, log
  entry 6). -/
  keys : List Bool
  /-- The characters the host will supply, in order; where it is empty a character is a free value (D8; DESIGN CHOICE,
  log entry 7). -/
  chars : List Word
  /-- Whether the host supplies no character after `chars`, so that GETC and IN wait for ever (R79, U7; DESIGN CHOICE,
  log entry 8). -/
  silent : Bool
  /-- How many instruction boundaries the host lets pass before it cancels; none: it never cancels (R118; DESIGN
  CHOICE, log entry 9). -/
  cancelIn : Option Nat
  /-- The output stream: every byte written, in order (R29, R109). -/
  output : List Byte
  /-- The input consumption history: every character taken from the host, in order (R29). -/
  consumed : List Word
  /-- The model's own counter of polls answered, which the free answer is applied to (DESIGN CHOICE, log entry 6). -/
  polls : Nat
deriving DecidableEq, Repr

/-- The machine: the register file (R18, R20, R22), memory (R25), the run state (R24) and the host's side (R29). -/
structure State where
  regs : Vector Word 8
  pc : Word
  cond : Cond
  mem : Memory
  runState : RunState
  host : HostSide
deriving DecidableEq, Repr

/-- Why a step gives no next state. -/
inductive Fault where
  /-- A fatal fault. `final` is the faulted state, with every effect made before the raise point (R115, R116; DESIGN
  CHOICE, log entry 11). Raised by RTI, RES, TRAP, PUTS and PUTSP. Safe as a stop, unsafe for
  a claim that reads the registers of `final` (D19). -/
  | fatal (reason : FaultReason) (final : State)
  /-- Stuck: GETC or IN waits for a character that the host never supplies, and the host never cancels (R79; DESIGN
  CHOICE, log entry 8). `waiting` is the state during the wait. Safe. -/
  | waitingForCharacter (waiting : State)
  /-- Stuck: the run state is terminal, so no step exists (R72; DESIGN CHOICE, log entry 17). Raised by `step`. Safe. -/
  | noStep (terminal : State)
deriving DecidableEq, Repr

/-- Why the model refuses an instruction. -/
inductive Refusal where
  /-- An instruction without a meaning in the model: no instruction of this model is left so. Safe. -/
  | notModelled (mnemonic : String)
deriving DecidableEq, Repr

/-- What a meaning answers. -/
abbrev Result := Host.Outcome State Fault Refusal

/-- The initial state before any image is loaded (R30 to R33, R131), for every `initGPR` and every host. The streams
start empty whatever the host. -/
def State.initial (initGPR : Vector Word 8) (host : HostSide) : State where
  regs := initGPR
  pc := Config.startPC
  cond := .z
  mem := []
  runState := .running
  host := { host with output := [], consumed := [] }

/-- The host of `State.reset`: every answer and every character a free value, no wait without end, no cancellation
(DESIGN CHOICE, log entries 6 to 9). -/
def HostSide.reset : HostSide where
  keys := []
  chars := []
  silent := false
  cancelIn := none
  output := []
  consumed := []
  polls := 0

/-- The machine right after reset. R0 to R7 start at 0x0000 here (DESIGN CHOICE, log entry 1); `State.initial` takes
them as the spec's parameter. -/
def State.reset : State := State.initial (Vector.replicate 8 0x0000#16) HostSide.reset

end Sys2Proof.Machine
end

