-- ==== Sys2Proof/Machine/Ops.lean ====
section
/-!
DEFINITION. The named operations every meaning is written over: registers, memory with the keyboard poll
(spec/20_memory.md), the host interactions (60_exceptions.md R127), raising a fault, trap entry, waiting and
cancelling.
-/

namespace Sys2Proof.Machine

/-! ### Memory as plain data -/

/-- The canonical form: addresses strictly rising and inside the address space, no cell holding 0x0000. -/
abbrev Memory.wf (m : Memory) : Prop :=
  m.Pairwise (fun x y => x.1 < y.1) ∧ ∀ c ∈ m, c.1 < Config.memoryEnd ∧ c.2 ≠ 0x0000#16

/-- The content of a cell; a cell that nothing has written holds 0x0000 (R33). -/
def memLookup : Memory → Nat → Word
  | [], _ => 0x0000#16
  | (k, v) :: rest, a => if k = a then v else memLookup rest a

/-- Insert a cell before the first higher address. -/
def memInsert : Memory → Nat → Word → Memory
  | [], a, v => [(a, v)]
  | (k, w) :: rest, a, v => if a < k then (a, v) :: (k, w) :: rest else (k, w) :: memInsert rest a v

/-- Replace the content of a cell, keeping the canonical form. -/
def memStore (m : Memory) (a : Nat) (v : Word) : Memory :=
  if v = 0x0000#16 then m.filter (fun c => c.1 != a) else memInsert (m.filter (fun c => c.1 != a)) a v

/-! ### Registers and plain fields -/

/-- x[r] (R13, R18). -/
def readReg (s : State) (r : Reg) : Word := s.regs[r.toNat]'(r.isLt)

/-- x[r] <- v (R13, R18). No register is hardwired. -/
def writeReg (s : State) (r : Reg) (v : Word) : State := { s with regs := s.regs.set r.toNat v r.isLt }

/-- PC <- v (R13). -/
def setPc (s : State) (v : Word) : State := { s with pc := v }

/-- COND <- c (R13). -/
def setCond (s : State) (c : Cond) : State := { s with cond := c }

/-- Set the run state (R24). -/
def setRunState (s : State) (r : RunState) : State := { s with runState := r }

/-- Replace the host's side. -/
def setHost (s : State) (h : HostSide) : State := { s with host := h }

/-- M[a]: the raw content of a cell, with no side effect (R13). -/
def cell (s : State) (a : Word) : Word := memLookup s.mem a.toNat

/-- M[a] <- v: the plain store (R37). -/
def setCell (s : State) (a v : Word) : State := { s with mem := memStore s.mem a.toNat v }

/-! ### The host's answers -/

/-- The host's answer to the next poll: the next listed one, or a free value (R127, D7; DESIGN CHOICE, log entry 6). -/
def nextKey (h : HostSide) : Bool := h.keys.headD (Config.keyAvailable h.polls)

/-- The host after it has answered a poll. -/
def afterKey (h : HostSide) : HostSide := { h with keys := h.keys.tail, polls := h.polls + 1 }

/-- The next character of the single input stream: the next listed one, or a free value (R127, D8; DESIGN CHOICE, log
entry 7). -/
def nextChar (h : HostSide) : Word := h.chars.headD (Config.hostChar h.consumed.length)

/-- The host after the CORE has taken that character (R29). -/
def afterChar (h : HostSide) : HostSide :=
  { h with chars := h.chars.tail, consumed := h.consumed ++ [nextChar h] }

/-- Whether GETC and IN wait without end: no character is listed and the host supplies no more (R79; DESIGN CHOICE,
log entry 8). -/
def hostWaits (h : HostSide) : Bool := h.silent && h.chars.isEmpty

/-- HostPutList: append bytes to the output stream, in order (R109, R127; UNVERIFIED, log entry 15). -/
def putBytes (s : State) (bs : List Byte) : State :=
  setHost s { s.host with output := s.host.output ++ bs }

/-- HostPut: append one byte (R109, R127). -/
def putByte (s : State) (b : Byte) : State := putBytes s [b]

/-! ### Memory access -/

/-- The poll when a key is available: bit 15 of KBSR set, the others kept, then the next character into KBDR (R38;
UNVERIFIED, log entry 14). -/
def pollFound (s : State) : State :=
  setHost (setCell (setCell s Config.kbsr (cell s Config.kbsr ||| 0x8000#16)) Config.kbdr (nextChar s.host))
    (afterChar s.host)

/-- The poll when no key is available: the whole of KBSR is cleared (R38). -/
def pollEmpty (s : State) : State := setCell s Config.kbsr 0x0000#16

/-- The keyboard poll (R38). Its bounded wait is not modelled (DESIGN CHOICE, log entry 18). -/
def keyboardPoll (s : State) : State :=
  if nextKey s.host then pollFound (setHost s (afterKey s.host)) else pollEmpty (setHost s (afterKey s.host))

/-- The state after a MemRead of `a`: only 0xFE00 has a side effect (R36, R44). -/
def afterRead (s : State) (a : Word) : State := if a = Config.kbsr then keyboardPoll s else s

/-- MemRead(a, 1): the word read, and the state after (R36). -/
def memRead (s : State) (a : Word) : Word × State := (cell (afterRead s a) a, afterRead s a)

/-- MemWrite(a, 1, v): an unconditional plain store (R37). -/
def memWrite (s : State) (a v : Word) : State := setCell s a v

/-- Fetch: read the word at PC, then increment PC modulo 65536 (R20, R73). The read polls at 0xFE00 (UNVERIFIED, log
entry 14). -/
def fetch (s : State) : Word × State :=
  ((memRead s s.pc).1, setPc (memRead s s.pc).2 (s.pc + 1#16))

/-! ### Stopping, trapping, waiting -/

/-- raise Fault(reason): the run ends in FAULTED(reason), with everything done so far kept (R115, R116). -/
def raiseFault (reason : FaultReason) (s : State) : Result :=
  .fault (.fatal reason (setRunState s (.faulted reason)))

/-- Trap entry saves exactly one thing: R7 <- PC, the address of TRAP + 1 (R99, R120). There is no return: PC is
already the address the next step fetches at (R121). -/
def trapEntry (s : State) : State := writeReg s 7#3 s.pc

/-- halt: the run state becomes HALTED (R14, R106). -/
def haltRun (s : State) : State := setRunState s .halted

/-- The host's cancellation: the run state becomes CANCELLED (R118). -/
def cancelRun (s : State) : State := setRunState s .cancelled

/-- GETC or IN waits for a character that never comes: the only move is the host's cancellation, and without one the
machine is stuck (R79, R118; DESIGN CHOICE, log entries 8 and 9). What the instruction did before the wait stays: R7, and
IN's prompt (95_test_vectors.md 2.6). The registers and memory of a cancelled run are no observable result (R118). -/
def waitForCharacter (s : State) : Result :=
  match s.host.cancelIn with
  | some _ => .next (cancelRun s)
  | none => .fault (.waitingForCharacter s)

/-- HostGetChar of GETC and IN: wait, or take the next character and go on with it (R101, R104, R127). -/
def withChar (s : State) (k : Word → State → State) : Result :=
  if hostWaits s.host then waitForCharacter s
  else .next (k (nextChar s.host) (setHost s (afterChar s.host)))

/-! ### Instruction boundaries -/

/-- Whether the host cancels at this boundary (R118, R119; DESIGN CHOICE, log entry 9). -/
def cancelsHere (h : HostSide) : Bool := h.cancelIn == some 0

/-- The host lets this boundary pass. -/
def passBoundary (s : State) : State :=
  setHost s { s.host with cancelIn := s.host.cancelIn.map (fun n => n - 1) }

end Sys2Proof.Machine
end

