-- ==== Sys2Proof/Machine/Flags.lean ====
section
/-!
DEFINITION. The condition code: how a result sets it (spec/40_execution_loop.md R75) and how BR tests it
(42_control.md R87).
-/

namespace Sys2Proof.Machine

/-- The flag of a 16-bit value (R75). -/
def condOf (v : Word) : Cond :=
  if v = 0x0000#16 then .z else if v.getLsbD 15 then .n else .p

/-- setcc: COND from the value the destination register holds after the write (R75). -/
def setcc (s : State) (v : Word) : State := setCond s (condOf v)

/-- Write a result to a register and set COND from it, the last action of ADD, AND, NOT, LD, LDI, LDR, LEA, GETC and
IN (R76). -/
def writeResult (s : State) (r : Reg) (v : Word) : State := setcc (writeReg s r v) v

/-- BR's test: the mask bit of the flag that COND holds is set (R63, R87). -/
def branchTaken (n z p : Bool) (c : Cond) : Bool :=
  match c with
  | .n => n
  | .z => z
  | .p => p

end Sys2Proof.Machine
end

