-- ==== Sys2Proof/Machine/Operands.lean ====
section
/-!
DEFINITION. Operand forms: sign extension (spec/00_scope.md R12), the parts of a character word (44_trap.md R109), and
the addressing modes of 43_load_store.md.
-/

namespace Sys2Proof.Machine

/-- sext_16 of an n-bit field (R12). -/
def sext16 {n : Nat} (f : BitVec n) : Word := f.signExtend 16

/-- PC-relative: PC, already incremented, plus the sign-extended offset, modulo 65536 (R60, R61, R78). -/
def pcRelative {n : Nat} (s : State) (off : BitVec n) : Word := s.pc + sext16 off

/-- Base plus offset: x[BaseR] + sext_16(offset6), modulo 65536 (R59, R94, R97). -/
def baseOffset (s : State) (base : Reg) (off : BitVec 6) : Word := readReg s base + sext16 off

/-- Bits 7:0 of a word (R109). -/
def lowByte (w : Word) : Byte := w.extractLsb' 0 8

/-- Bits 15:8 of a word (R105). -/
def highByte (w : Word) : Byte := w.extractLsb' 8 8

/-- What PUTSP writes for one cell: the low byte, then the high byte if it is not zero (R105). -/
def packedBytes (w : Word) : List Byte :=
  if highByte w = 0x00#8 then [lowByte w] else [lowByte w, highByte w]

end Sys2Proof.Machine
end

