-- ==== Sys2Proof/Machine/Control.lean ====
section
/-!
DEFINITION. Control transfer: BR, JMP, RET, JSR and JSRR (spec/42_control.md). PC is already incremented (R73).
-/

namespace Sys2Proof.Machine

/-- BR (R87). -/
def execBr (n z p : Bool) (off : BitVec 9) (s : State) : Result :=
  .next (if branchTaken n z p s.cond then setPc s (pcRelative s off) else s)

/-- JMP (R88). -/
def execJmp (base : Reg) (s : State) : Result := .next (setPc s (readReg s base))

/-- RET: JMP through R7 (R89). -/
def execRet (s : State) : Result := .next (setPc s (readReg s 7#3))

/-- The link write of a call: R7 <- PC, before the target is taken (R90, R91). -/
def linkR7 (s : State) : State := writeReg s 7#3 s.pc

/-- JSR (R90). -/
def execJsr (off : BitVec 11) (s : State) : Result :=
  .next (setPc (linkR7 s) (pcRelative (linkR7 s) off))

/-- JSRR: R7 is written first and BaseR is read after it (R78, R91; UNVERIFIED, log entry 14). -/
def execJsrr (base : Reg) (s : State) : Result :=
  .next (setPc (linkR7 s) (readReg (linkR7 s) base))

end Sys2Proof.Machine
end

