-- ==== Sys2Proof/Machine/LoadStore.lean ====
section
/-!
DEFINITION. Loads, stores and LEA (spec/43_load_store.md). PC is already incremented (R73). Every data read is a
MemRead, so a read of 0xFE00 polls the keyboard at any stage.
-/

namespace Sys2Proof.Machine

/-- Load the word at `ea` into `dr` and set COND from it. -/
def loadResult (s : State) (dr : Reg) (ea : Word) : State :=
  writeResult (memRead s ea).2 dr (memRead s ea).1

/-- LD (R92). -/
def execLd (dr : Reg) (off : BitVec 9) (s : State) : Result :=
  .next (loadResult s dr (pcRelative s off))

/-- LDI: the pointer is read first, then the word it points at (R93). -/
def execLdi (dr : Reg) (off : BitVec 9) (s : State) : Result :=
  .next (loadResult (memRead s (pcRelative s off)).2 dr (memRead s (pcRelative s off)).1)

/-- LDR (R94). -/
def execLdr (dr base : Reg) (off : BitVec 6) (s : State) : Result :=
  .next (loadResult s dr (baseOffset s base off))

/-- ST (R95). -/
def execSt (sr : Reg) (off : BitVec 9) (s : State) : Result :=
  .next (memWrite s (pcRelative s off) (readReg s sr))

/-- STI: the pointer is read first, then the store goes where it points (R96). -/
def execSti (sr : Reg) (off : BitVec 9) (s : State) : Result :=
  .next (memWrite (memRead s (pcRelative s off)).2 (memRead s (pcRelative s off)).1
    (readReg (memRead s (pcRelative s off)).2 sr))

/-- STR (R97). -/
def execStr (sr base : Reg) (off : BitVec 6) (s : State) : Result :=
  .next (memWrite s (baseOffset s base off) (readReg s sr))

/-- LEA: the address itself, with no memory access (R98). -/
def execLea (dr : Reg) (off : BitVec 9) (s : State) : Result :=
  .next (writeResult s dr (pcRelative s off))

end Sys2Proof.Machine
end

