-- ==== Sys2Proof/Machine/Operate.lean ====
section
/-!
DEFINITION. The operate instructions ADD, AND and NOT (spec/41_operate.md). PC is already incremented (R73).
-/

namespace Sys2Proof.Machine

/-- ADD, register form (R82). -/
def execAddReg (dr sr1 sr2 : Reg) (s : State) : Result :=
  .next (writeResult s dr (readReg s sr1 + readReg s sr2))

/-- ADD, immediate form (R83). -/
def execAddImm (dr sr1 : Reg) (imm : BitVec 5) (s : State) : Result :=
  .next (writeResult s dr (readReg s sr1 + sext16 imm))

/-- AND, register form (R84). -/
def execAndReg (dr sr1 sr2 : Reg) (s : State) : Result :=
  .next (writeResult s dr (readReg s sr1 &&& readReg s sr2))

/-- AND, immediate form (R85). -/
def execAndImm (dr sr1 : Reg) (imm : BitVec 5) (s : State) : Result :=
  .next (writeResult s dr (readReg s sr1 &&& sext16 imm))

/-- NOT (R86). -/
def execNot (dr sr : Reg) (s : State) : Result :=
  .next (writeResult s dr (~~~(readReg s sr)))

end Sys2Proof.Machine
end

