-- ==== Sys2Proof/Machine/Reserved.lean ====
section
/-!
DEFINITION. The reserved opcodes RTI and RES (spec/45_reserved.md).
-/

namespace Sys2Proof.Machine

/-- RTI: a fatal fault, nothing written beyond the fetch (R111). -/
def execRti (s : State) : Result := raiseFault (.invalidOpcode 0x8#4) s

/-- RES: a fatal fault, nothing written beyond the fetch (R112). -/
def execRes (s : State) : Result := raiseFault (.invalidOpcode 0xD#4) s

end Sys2Proof.Machine
end

