-- ==== Sys2Proof/Machine/Trap.lean ====
section
/-!
DEFINITION. TRAP, the dispatcher and its six routines (spec/44_trap.md). PC is already incremented (R73). Each routine
runs after `trapEntry` has saved R7 (R99).
-/

namespace Sys2Proof.Machine

/-- ScanRead: the cell at the integer address `a`, or the address as the reason it cannot be read (R108). -/
def scanRead (m : Memory) (a : Nat) : Except Nat Word :=
  if 0xFFFF < a then .error a
  else if a = 0xFE00 then .error a
  else .ok (memLookup m a)

/-- The scan of a string, from the address that lies `left` cells below 0x10000: the non-zero cells read, and the
address of the bad cell if the scan meets one before a zero cell (R103, R105, R108). It reads memory only, so the
bytes can be written after it in the same order (DEDUCED, log entry 21). -/
def scanFrom (m : Memory) : (left : Nat) → List Word × Option Nat
  | 0 => ([], some Config.memoryEnd)
  | left + 1 =>
    match scanRead m (Config.memoryEnd - (left + 1)) with
    | .error a => ([], some a)
    | .ok w =>
      if w = 0x0000#16 then ([], none) else (w :: (scanFrom m left).1, (scanFrom m left).2)

/-- The scan that PUTS and PUTSP make from an address. -/
def scanString (s : State) (a : Word) : List Word × Option Nat :=
  scanFrom s.mem (Config.memoryEnd - a.toNat)

/-- Write the bytes of the scanned cells, then go on, or fault at the bad cell with those bytes kept (R108, R115). -/
def putString (bytesOf : Word → List Byte) (s : State) : Result :=
  match (scanString s (readReg s 0#3)).2 with
  | none => .next (putBytes s ((scanString s (readReg s 0#3)).1.flatMap bytesOf))
  | some a =>
    raiseFault (.stringScanOutOfRange a) (putBytes s ((scanString s (readReg s 0#3)).1.flatMap bytesOf))

/-- GETC: one character into R0, without echo (R101). -/
def routineGetc (s : State) : Result := withChar s (fun c t => writeResult t 0#3 c)

/-- OUT: the low byte of R0 (R102). -/
def routineOut (s : State) : Result := .next (putByte s (lowByte (readReg s 0#3)))

/-- PUTS: one character per cell, the low byte (R103). -/
def routinePuts (s : State) : Result := putString (fun w => [lowByte w]) s

/-- IN: the prompt, one character, the echo of its low byte, the character into R0 (R104; UNVERIFIED, log entry 14).
The prompt is written before the wait. -/
def routineIn (s : State) : Result :=
  withChar (putBytes s Config.inPrompt) (fun c t => writeResult (putByte t (lowByte c)) 0#3 c)

/-- PUTSP: two characters per cell (R105). -/
def routinePutsp (s : State) : Result := putString packedBytes s

/-- HALT: the message, then the run state HALTED (R106). -/
def routineHalt (s : State) : Result := .next (haltRun (putBytes s Config.haltMessage))

/-- Dispatch on the vector (R100); a vector with no routine is a fatal fault (R107; UNVERIFIED, log entry 13). -/
def dispatchTrap (v : BitVec 8) (s : State) : Result :=
  if v = 0x20#8 then routineGetc s
  else if v = 0x21#8 then routineOut s
  else if v = 0x22#8 then routinePuts s
  else if v = 0x23#8 then routineIn s
  else if v = 0x24#8 then routinePutsp s
  else if v = 0x25#8 then routineHalt s
  else raiseFault (.undefinedTrapVector v) s

/-- TRAP with any vector (R99, R100). -/
def execTrap (v : BitVec 8) (s : State) : Result := dispatchTrap v (trapEntry s)

/-- GETC: TRAP x20 (R101). -/
def execGetc (s : State) : Result := routineGetc (trapEntry s)

/-- OUT: TRAP x21 (R102). -/
def execOut (s : State) : Result := routineOut (trapEntry s)

/-- PUTS: TRAP x22 (R103). -/
def execPuts (s : State) : Result := routinePuts (trapEntry s)

/-- IN: TRAP x23 (R104). -/
def execIn (s : State) : Result := routineIn (trapEntry s)

/-- PUTSP: TRAP x24 (R105). -/
def execPutsp (s : State) : Result := routinePutsp (trapEntry s)

/-- HALT: TRAP x25 (R106). -/
def execHalt (s : State) : Result := routineHalt (trapEntry s)

/-- TRAP with a vector that has no routine (R107). -/
def execTrapUndefined (v : BitVec 8) (s : State) : Result :=
  raiseFault (.undefinedTrapVector v) (trapEntry s)

end Sys2Proof.Machine
end

