-- ==== Sys2Proof/Machine/Step.lean ====
section
/-!
DEFINITION. One step of the loop (spec/40_execution_loop.md R72, R73), and where the host puts an instruction it wants
run.
-/

namespace Sys2Proof.Machine

/-- Fetch, decode and execute one instruction (R73). -/
def runInstruction (s : State) : Host.Outcome State Fault Refusal :=
  exec (decode (fetch s).1) (fetch s).2

/-- One step: only while RUNNING (R72); at the boundary the host may cancel (R118); then one instruction (R73). -/
def step (s : State) : Host.Outcome State Fault Refusal :=
  if s.runState = .running then
    if cancelsHere s.host then .next (cancelRun s) else runInstruction (passBoundary s)
  else .fault (.noStep s)

/-- `s` with an instruction's word in the cell that the next fetch reads (DESIGN CHOICE, log entry 16). -/
def State.withFetchWord (s : State) (nbits w : Nat) : State :=
  setCell s s.pc (BitVec.ofNat 16 (w % 2 ^ nbits))

end Sys2Proof.Machine
end

