-- ==== Sys2Proof/Machine/Launch.lean ====
section
/-!
DEFINITION. How a program comes into memory: the image format and placement, and the initial state that a launch
builds (spec/70_reset_and_hazards.md R131 to R137), and the exit status the host reads at the end (60_exceptions.md
R127).
-/

namespace Sys2Proof.Machine

/-- An image: its origin and its words (R132). -/
structure Image where
  origin : Word
  words : List Word
deriving DecidableEq, Repr

/-- Why a launch builds no initial state. -/
inductive LaunchError where
  /-- No image argument: the usage error (R137). -/
  | noImage
  /-- An image of fewer than two bytes (R135; DESIGN CHOICE, log entry 16). -/
  | tooShort
  /-- An image with an odd number of bytes (R135; DESIGN CHOICE, log entry 16). -/
  | oddLength
  /-- An image whose words would run past 0xFFFF (R135; DESIGN CHOICE, log entry 16). -/
  | pastMemoryEnd
deriving DecidableEq, Repr

/-- {hi, lo}: a word from two bytes, big-endian (R132). -/
def bigEndian (hi lo : Byte) : Word := hi ++ lo

/-- The words of a byte sequence, two bytes each, high byte first; none if a byte is left over (R132, R135). -/
def wordsOfBytes : List Byte → Option (List Word)
  | [] => some []
  | [_] => none
  | hi :: lo :: rest => (wordsOfBytes rest).map (fun ws => bigEndian hi lo :: ws)

/-- Read an image from its bytes; a malformed one is refused (R132, R135). -/
def parseImage : List Byte → Except LaunchError Image
  | [] => .error .tooShort
  | [_] => .error .tooShort
  | hi :: lo :: rest =>
    match wordsOfBytes rest with
    | none => .error .oddLength
    | some ws =>
      if Config.memoryEnd < (bigEndian hi lo).toNat + ws.length then .error .pastMemoryEnd
      else .ok ⟨bigEndian hi lo, ws⟩

/-- The bytes of a word, high byte first (R132). -/
def bytesOfWord (w : Word) : List Byte := [w.extractLsb' 8 8, w.extractLsb' 0 8]

/-- The bytes of an image (R132). -/
def bytesOfImage (i : Image) : List Byte := bytesOfWord i.origin ++ i.words.flatMap bytesOfWord

/-- Plain stores of words at rising addresses (R133). -/
def placeWords (m : Memory) : Nat → List Word → Memory
  | _, [] => m
  | a, w :: ws => placeWords (memStore m a w) (a + 1) ws

/-- Load one image: M[origin + i] <- w[i], with no device side effect, and PC untouched (R133, R136). -/
def loadImage (s : State) (i : Image) : State :=
  { s with mem := placeWords s.mem i.origin.toNat i.words }

/-- Load images in argument order, later ones over earlier ones; one bad image and nothing is built (R134, R137). -/
def loadImages (s : State) : List (List Byte) → Except LaunchError State
  | [] => .ok s
  | b :: rest =>
    match parseImage b with
    | .error e => .error e
    | .ok i => loadImages (loadImage s i) rest

/-- A launch: the initial state for `initGPR`, the host and the images, or the reason there is none (R131, R137). -/
def launch (initGPR : Vector Word 8) (host : HostSide) (images : List (List Byte)) : Except LaunchError State :=
  if images.isEmpty then .error .noImage else loadImages (State.initial initGPR host) images

/-- The exit code the spec fixes for an end state: 0 for HALTED; any other is the host's (R80, R127, D20; DESIGN
CHOICE, log entry 19). -/
def exitCode : RunState → Option Nat
  | .halted => some 0
  | .running => none
  | .faulted _ => none
  | .cancelled => none

end Sys2Proof.Machine
end

