-- ==== Sys2Proof/Safety.lean ====
section
/-!
DEFINITION. The terms the statements use: the signed readings of spec/00_scope.md R11 and R12, what an instruction
changes and leaves (its frame), strings in memory, runs, and what counts as a successful end (40_execution_loop.md
R80).
-/

namespace Sys2Proof.Machine

/-! ### Signed readings -/

/-- sext_16(f) as R12 gives it by number: the signed value of the field, modulo 65536. -/
def signedWord {n : Nat} (f : BitVec n) : Word := BitVec.ofInt 16 f.toInt

/-- The flag of a value read as a two's-complement integer, in the source's words (R75). -/
def signedFlag (v : Word) : Cond := if v.toInt = 0 then .z else if v.toInt < 0 then .n else .p

/-! ### Frames: the whole effect of one kind of instruction -/

/-- `t` is `s` with register `dr` holding `v`, COND its flag, and everything else as it was. -/
structure WritesResult (s t : State) (dr : Reg) (v : Word) : Prop where
  result : readReg t dr = v
  flag : t.cond = signedFlag v
  regs : ∀ r, r ≠ dr → readReg t r = readReg s r
  pc : t.pc = s.pc
  mem : ∀ a, cell t a = cell s a
  run : t.runState = s.runState
  host : t.host = s.host

/-- `t` is `s` with the cell `a` holding `v` and everything else as it was. -/
structure StoresCell (s t : State) (a v : Word) : Prop where
  stored : cell t a = v
  mem : ∀ b, b ≠ a → cell t b = cell s b
  regs : ∀ r, readReg t r = readReg s r
  cond : t.cond = s.cond
  pc : t.pc = s.pc
  run : t.runState = s.runState
  host : t.host = s.host

/-- `t` is `s` with PC at `target` and everything else as it was. -/
structure Jumps (s t : State) (target : Word) : Prop where
  pc : t.pc = target
  regs : ∀ r, readReg t r = readReg s r
  cond : t.cond = s.cond
  mem : ∀ a, cell t a = cell s a
  run : t.runState = s.runState
  host : t.host = s.host

/-- `t` is `s` with the old PC in R7, PC at `target` and everything else as it was. -/
structure Calls (s t : State) (target : Word) : Prop where
  pc : t.pc = target
  link : readReg t 7#3 = s.pc
  regs : ∀ r, r ≠ 7#3 → readReg t r = readReg s r
  cond : t.cond = s.cond
  mem : ∀ a, cell t a = cell s a
  run : t.runState = s.runState
  host : t.host = s.host

/-- `t` is `s` after a TRAP that wrote `bytes` to the output, with R7 holding the old PC, the run state `run` and
everything else as it was. -/
structure TrapWrites (s t : State) (bytes : List Byte) (run : RunState) : Prop where
  link : readReg t 7#3 = s.pc
  regs : ∀ r, r ≠ 7#3 → readReg t r = readReg s r
  pc : t.pc = s.pc
  cond : t.cond = s.cond
  mem : ∀ a, cell t a = cell s a
  run : t.runState = run
  host : t.host = { s.host with output := s.host.output ++ bytes }

/-- `t` is `s` after a TRAP that took the character `c` from the host and wrote `bytes` to the output: R0 holds `c`,
COND its flag, R7 the old PC, and everything else is as it was. -/
structure TrapReads (s t : State) (c : Word) (bytes : List Byte) : Prop where
  char : readReg t 0#3 = c
  flag : t.cond = signedFlag c
  link : readReg t 7#3 = s.pc
  regs : ∀ r, r ≠ 0#3 → r ≠ 7#3 → readReg t r = readReg s r
  pc : t.pc = s.pc
  mem : ∀ a, cell t a = cell s a
  run : t.runState = s.runState
  host : t.host = { s.host with
    chars := s.host.chars.tail, consumed := s.host.consumed ++ [c], output := s.host.output ++ bytes }

/-! ### Strings in memory -/

/-- The cells from `a` on hold the words `ws`, none of them zero, none at 0xFE00, none past 0xFFFF. -/
def CellsAt (s : State) (a : Word) (ws : List Word) : Prop :=
  ∀ i, (h : i < ws.length) → a.toNat + i ≤ 0xFFFF ∧ a.toNat + i ≠ 0xFE00 ∧ ws[i] ≠ 0x0000#16 ∧
    cell s (BitVec.ofNat 16 (a.toNat + i)) = ws[i]

/-- A string at `a` whose cells are `ws`, ended by a zero cell that a scan may read (R103, R105). -/
def StringAt (s : State) (a : Word) (ws : List Word) : Prop :=
  CellsAt s a ws ∧ a.toNat + ws.length ≤ 0xFFFF ∧ a.toNat + ws.length ≠ 0xFE00 ∧
    cell s (BitVec.ofNat 16 (a.toNat + ws.length)) = 0x0000#16

/-- A scan from `a` that reads `ws` and then meets `bad`: 0xFE00, or 0x10000 past the top of memory (R108). -/
def BadStringAt (s : State) (a : Word) (ws : List Word) (bad : Nat) : Prop :=
  CellsAt s a ws ∧ bad = a.toNat + ws.length ∧ (bad = 0xFE00 ∨ bad = 0x10000)

/-! ### What each instruction may write -/

/-- The general registers an instruction writes (R19). -/
def regTargets : Instr → List Reg
  | .addReg dr _ _ => [dr]
  | .addImm dr _ _ => [dr]
  | .andReg dr _ _ => [dr]
  | .andImm dr _ _ => [dr]
  | .not dr _ => [dr]
  | .ld dr _ => [dr]
  | .ldi dr _ => [dr]
  | .ldr dr _ _ => [dr]
  | .lea dr _ => [dr]
  | .jsr _ => [7#3]
  | .jsrr _ => [7#3]
  | .trap v => if v = 0x20#8 ∨ v = 0x23#8 then [0#3, 7#3] else [7#3]
  | .getc => [0#3, 7#3]
  | .inp => [0#3, 7#3]
  | .out => [7#3]
  | .puts => [7#3]
  | .putsp => [7#3]
  | .halt => [7#3]
  | .trapUndefined _ => [7#3]
  | .br _ _ _ _ => []
  | .st _ _ => []
  | .sti _ _ => []
  | .str _ _ _ => []
  | .jmp _ => []
  | .ret => []
  | .rti => []
  | .res => []

/-- Whether an instruction writes COND (R23). -/
def setsCond : Instr → Bool
  | .addReg _ _ _ => true
  | .addImm _ _ _ => true
  | .andReg _ _ _ => true
  | .andImm _ _ _ => true
  | .not _ _ => true
  | .ld _ _ => true
  | .ldi _ _ => true
  | .ldr _ _ _ => true
  | .lea _ _ => true
  | .getc => true
  | .inp => true
  | .trap v => v == 0x20#8 || v == 0x23#8
  | .out => false
  | .puts => false
  | .putsp => false
  | .halt => false
  | .trapUndefined _ => false
  | .jsr _ => false
  | .jsrr _ => false
  | .br _ _ _ _ => false
  | .st _ _ => false
  | .sti _ _ => false
  | .str _ _ _ => false
  | .jmp _ => false
  | .ret => false
  | .rti => false
  | .res => false

/-- The addresses an instruction passes to MemRead, in order (R42); fetch and string scans are not among them. -/
def dataReads : Instr → State → List Word
  | .ld _ off, s => [s.pc + signedWord off]
  | .ldi _ off, s => [s.pc + signedWord off, (memRead s (s.pc + signedWord off)).1]
  | .ldr _ base off, s => [readReg s base + signedWord off]
  | .sti _ off, s => [s.pc + signedWord off]
  | .addReg _ _ _, _ => []
  | .addImm _ _ _, _ => []
  | .andReg _ _ _, _ => []
  | .andImm _ _ _, _ => []
  | .not _ _, _ => []
  | .lea _ _, _ => []
  | .getc, _ => []
  | .inp, _ => []
  | .trap _, _ => []
  | .out, _ => []
  | .puts, _ => []
  | .putsp, _ => []
  | .halt, _ => []
  | .trapUndefined _, _ => []
  | .jsr _, _ => []
  | .jsrr _, _ => []
  | .br _ _ _ _, _ => []
  | .st _ _, _ => []
  | .str _ _ _, _ => []
  | .jmp _, _ => []
  | .ret, _ => []
  | .rti, _ => []
  | .res, _ => []

/-- The address an instruction passes to MemWrite, if it stores (R42). -/
def dataWrite : Instr → State → Option Word
  | .st _ off, s => some (s.pc + signedWord off)
  | .sti _ off, s => some (memRead s (s.pc + signedWord off)).1
  | .str _ base off, s => some (readReg s base + signedWord off)
  | .ld _ _, _ => none
  | .ldi _ _, _ => none
  | .ldr _ _ _, _ => none
  | .addReg _ _ _, _ => none
  | .addImm _ _ _, _ => none
  | .andReg _ _ _, _ => none
  | .andImm _ _ _, _ => none
  | .not _ _, _ => none
  | .lea _ _, _ => none
  | .getc, _ => none
  | .inp, _ => none
  | .trap _, _ => none
  | .out, _ => none
  | .puts, _ => none
  | .putsp, _ => none
  | .halt, _ => none
  | .trapUndefined _, _ => none
  | .jsr _, _ => none
  | .jsrr _, _ => none
  | .br _ _ _ _, _ => none
  | .jmp _, _ => none
  | .ret, _ => none
  | .rti, _ => none
  | .res, _ => none

/-- Whether an instruction is GETC or IN, under either spelling: it takes a character by itself (R101, R104). -/
def takesChar : Instr → Bool
  | .getc => true
  | .inp => true
  | .trap v => v == 0x20#8 || v == 0x23#8
  | .addReg _ _ _ => false
  | .addImm _ _ _ => false
  | .andReg _ _ _ => false
  | .andImm _ _ _ => false
  | .not _ _ => false
  | .ld _ _ => false
  | .ldi _ _ => false
  | .ldr _ _ _ => false
  | .lea _ _ => false
  | .out => false
  | .puts => false
  | .putsp => false
  | .halt => false
  | .trapUndefined _ => false
  | .jsr _ => false
  | .jsrr _ => false
  | .br _ _ _ _ => false
  | .st _ _ => false
  | .sti _ _ => false
  | .str _ _ _ => false
  | .jmp _ => false
  | .ret => false
  | .rti => false
  | .res => false

/-- The bits of a word that no field of its instruction uses (R65). -/
def ignoredBits : Instr → Word
  | .addReg _ _ _ => 0x0018#16
  | .andReg _ _ _ => 0x0018#16
  | .not _ _ => 0x003F#16
  | .jmp _ => 0x0E3F#16
  | .ret => 0x0E3F#16
  | .jsrr _ => 0x063F#16
  | .trap _ => 0x0F00#16
  | .getc => 0x0F00#16
  | .out => 0x0F00#16
  | .puts => 0x0F00#16
  | .inp => 0x0F00#16
  | .putsp => 0x0F00#16
  | .halt => 0x0F00#16
  | .trapUndefined _ => 0x0F00#16
  | .rti => 0x0FFF#16
  | .res => 0x0FFF#16
  | .br _ _ _ _ => 0x0000#16
  | .addImm _ _ _ => 0x0000#16
  | .andImm _ _ _ => 0x0000#16
  | .ld _ _ => 0x0000#16
  | .ldi _ _ => 0x0000#16
  | .ldr _ _ _ => 0x0000#16
  | .lea _ _ => 0x0000#16
  | .st _ _ => 0x0000#16
  | .sti _ _ => 0x0000#16
  | .str _ _ _ => 0x0000#16
  | .jsr _ => 0x0000#16

/-! ### Runs -/

/-- `t` is reached from `s` by steps that each answer a next state. -/
inductive Reaches (s : State) : State → Prop where
  | here : Reaches s s
  | step {t u : State} : Reaches s t → step t = .next u → Reaches s u

/-- The only successful end of a run (R80). A claim of success has this as its conclusion or premise. -/
def Successful (s : State) : Prop := s.runState = .halted

/-- The run states no step leaves (R24, R72). -/
def RunState.terminal : RunState → Bool
  | .running => false
  | .halted => true
  | .faulted _ => true
  | .cancelled => true

end Sys2Proof.Machine
end

