-- ==== Sys2Proof/Certificates/Slice0/Obligations.lean ====
section
/-!
DEFINITION. The statements for the provers. Each is a claim about the machine, from the numbered rules of spec/. The state
an instruction starts from is the one after the fetch, so that its PC is the address of the instruction plus 1 (R20).
-/

open Sys2Proof Sys2Proof.Machine

/-! ### Encoding (30_encoding.md) -/

/-- Decoding an encoded instruction gives the most specific row for its word: the instruction itself if it is well
formed, and RET for a JMP through R7 or the vector's own row for a TRAP. -/
def Obligations.DecodeEncodeAgree : Prop :=
  (∀ i : Instr, decode (encode i) = i.specialise) ∧
  (∀ i : Instr, i.wellFormed = true → decode (encode i) = i)

/-- Every word decodes to a well-formed instruction, and encoding that instruction gives back every bit of the word that
R65 does not list as ignored. -/
def Obligations.EncodeDecodeKeepsUsedBits : Prop :=
  ∀ w : Word, (decode w).wellFormed = true ∧
    encode (decode w) &&& ~~~(ignoredBits (decode w)) = w &&& ~~~(ignoredBits (decode w))

/-- R65: two words that differ in ignored bits only are one instruction. That no value of them is illegal is the spec's own
decision D3 (log entry 14). -/
def Obligations.IgnoredBitsHaveNoEffect : Prop :=
  ∀ w w' : Word, w &&& ~~~(ignoredBits (decode w)) = w' &&& ~~~(ignoredBits (decode w)) → decode w' = decode w

/-- R55: the opcode assignment, with the split of 0x4 by bit 11 and RET when BaseR = 7. The numbers are the spec's own
decision D1 (log entry 3). -/
def Obligations.OpcodeAssignment : Prop :=
  ∀ w : Word,
    (w.extractLsb' 12 4 = 0x0#4 → (decode w).opcode = .br) ∧
    (w.extractLsb' 12 4 = 0x1#4 → (decode w).opcode = .add) ∧
    (w.extractLsb' 12 4 = 0x2#4 → (decode w).opcode = .ld) ∧
    (w.extractLsb' 12 4 = 0x3#4 → (decode w).opcode = .st) ∧
    (w.extractLsb' 12 4 = 0x4#4 → (decode w).opcode = .jsr ∧
      (w.getLsbD 11 = true → ∃ off, decode w = .jsr off) ∧ (w.getLsbD 11 = false → ∃ b, decode w = .jsrr b)) ∧
    (w.extractLsb' 12 4 = 0x5#4 → (decode w).opcode = .and) ∧
    (w.extractLsb' 12 4 = 0x6#4 → (decode w).opcode = .ldr) ∧
    (w.extractLsb' 12 4 = 0x7#4 → (decode w).opcode = .str) ∧
    (w.extractLsb' 12 4 = 0x8#4 → (decode w).opcode = .rti) ∧
    (w.extractLsb' 12 4 = 0x9#4 → (decode w).opcode = .not) ∧
    (w.extractLsb' 12 4 = 0xA#4 → (decode w).opcode = .ldi) ∧
    (w.extractLsb' 12 4 = 0xB#4 → (decode w).opcode = .sti) ∧
    (w.extractLsb' 12 4 = 0xC#4 → (decode w).opcode = .jmp ∧ (w.extractLsb' 6 3 = 7#3 → decode w = .ret)) ∧
    (w.extractLsb' 12 4 = 0xD#4 → (decode w).opcode = .res) ∧
    (w.extractLsb' 12 4 = 0xE#4 → (decode w).opcode = .lea) ∧
    (w.extractLsb' 12 4 = 0xF#4 → (decode w).opcode = .trap)

/-- A few words written out from the spec's own examples decode to the instructions they stand for. -/
def Obligations.ExampleWordsDecode : Prop :=
  decode 0x1042#16 = .addReg 0#3 1#3 2#3 ∧
  decode 0x107D#16 = .addImm 0#3 1#3 0b11101#5 ∧
  decode 0x05FD#16 = .br false true false 0x1FD#9 ∧
  decode 0x4080#16 = .jsrr 2#3 ∧
  decode 0x673F#16 = .ldr 3#3 4#3 0x3F#6 ∧
  decode 0xBA00#16 = .sti 5#3 0#9 ∧
  decode 0xFF25#16 = .halt ∧
  decode 0xD123#16 = .res

/-- A row that specialises another has the same meaning as the row it specialises: RET that of JMP R7, the six routines and
TRAP-undefined that of TRAP with their vectors. -/
def Obligations.SpecialisedRowsRefineBaseRows : Prop :=
  (∀ (base : Reg) (s : State), exec (Instr.jmp base).specialise s = exec (.jmp base) s) ∧
  (∀ (v : BitVec 8) (s : State), exec (Instr.trap v).specialise s = exec (.trap v) s)

/-! ### Operate instructions (41_operate.md) -/

/-- R82. -/
def Obligations.AddRegisterForm : Prop :=
  (∀ w : Word, w &&& 0xF020#16 = 0x1000#16 →
    decode w = .addReg (w.extractLsb' 9 3) (w.extractLsb' 6 3) (w.extractLsb' 0 3)) ∧
  ∀ (dr sr1 sr2 : Reg) (s : State), ∃ t, exec (.addReg dr sr1 sr2) s = .next t ∧
    WritesResult s t dr (BitVec.ofNat 16 ((readReg s sr1).toNat + (readReg s sr2).toNat))

/-- R83. -/
def Obligations.AddImmediateForm : Prop :=
  (∀ w : Word, w &&& 0xF020#16 = 0x1020#16 →
    decode w = .addImm (w.extractLsb' 9 3) (w.extractLsb' 6 3) (w.extractLsb' 0 5)) ∧
  ∀ (dr sr1 : Reg) (imm : BitVec 5) (s : State), ∃ t, exec (.addImm dr sr1 imm) s = .next t ∧
    WritesResult s t dr (BitVec.ofInt 16 ((readReg s sr1).toInt + imm.toInt))

/-- R84. -/
def Obligations.AndRegisterForm : Prop :=
  (∀ w : Word, w &&& 0xF020#16 = 0x5000#16 →
    decode w = .andReg (w.extractLsb' 9 3) (w.extractLsb' 6 3) (w.extractLsb' 0 3)) ∧
  ∀ (dr sr1 sr2 : Reg) (s : State), ∃ t, exec (.andReg dr sr1 sr2) s = .next t ∧
    WritesResult s t dr (readReg s sr1 &&& readReg s sr2)

/-- R85. -/
def Obligations.AndImmediateForm : Prop :=
  (∀ w : Word, w &&& 0xF020#16 = 0x5020#16 →
    decode w = .andImm (w.extractLsb' 9 3) (w.extractLsb' 6 3) (w.extractLsb' 0 5)) ∧
  ∀ (dr sr1 : Reg) (imm : BitVec 5) (s : State), ∃ t, exec (.andImm dr sr1 imm) s = .next t ∧
    WritesResult s t dr (readReg s sr1 &&& signedWord imm)

/-- R86. -/
def Obligations.NotComplements : Prop :=
  (∀ w : Word, w &&& 0xF000#16 = 0x9000#16 → decode w = .not (w.extractLsb' 9 3) (w.extractLsb' 6 3)) ∧
  ∀ (dr sr : Reg) (s : State), ∃ t, exec (.not dr sr) s = .next t ∧ WritesResult s t dr (~~~(readReg s sr))

/-! ### Control transfer (42_control.md) -/

/-- R87. -/
def Obligations.BranchOnCondition : Prop :=
  (∀ w : Word, w &&& 0xF000#16 = 0x0000#16 →
    decode w = .br (w.getLsbD 11) (w.getLsbD 10) (w.getLsbD 9) (w.extractLsb' 0 9)) ∧
  ∀ (n z p : Bool) (off : BitVec 9) (s : State), ∃ t, exec (.br n z p off) s = .next t ∧
    Jumps s t (if (n = true ∧ s.cond = .n) ∨ (z = true ∧ s.cond = .z) ∨ (p = true ∧ s.cond = .p)
      then s.pc + signedWord off else s.pc)

/-- R68: a BR with no condition bit, and the word 0x0000, change nothing beyond the fetch. -/
def Obligations.BranchNeverIsNoOp : Prop :=
  (∀ (off : BitVec 9) (s : State), exec (.br false false false off) s = .next s) ∧
  (∀ s : State, exec (decode 0x0000#16) s = .next s)

/-- R88 and R89: JMP and RET. -/
def Obligations.JumpThroughRegister : Prop :=
  (∀ w : Word, w &&& 0xF000#16 = 0xC000#16 →
    ∀ s, exec (decode w) s = exec (.jmp (w.extractLsb' 6 3)) s) ∧
  (∀ w : Word, w &&& 0xF1C0#16 = 0xC1C0#16 → decode w = .ret) ∧
  (∀ (base : Reg) (s : State), ∃ t, exec (.jmp base) s = .next t ∧ Jumps s t (readReg s base)) ∧
  (∀ s : State, ∃ t, exec .ret s = .next t ∧ Jumps s t (readReg s 7#3))

/-- R90. -/
def Obligations.CallRelative : Prop :=
  (∀ w : Word, w &&& 0xF800#16 = 0x4800#16 → decode w = .jsr (w.extractLsb' 0 11)) ∧
  ∀ (off : BitVec 11) (s : State), ∃ t, exec (.jsr off) s = .next t ∧ Calls s t (s.pc + signedWord off)

/-- R91: R7 is written before BaseR is read, so that JSRR R7 falls through: the spec's own decision D18 (log entry 14). -/
def Obligations.CallThroughRegister : Prop :=
  (∀ w : Word, w &&& 0xF800#16 = 0x4000#16 → decode w = .jsrr (w.extractLsb' 6 3)) ∧
  ∀ (base : Reg) (s : State), ∃ t, exec (.jsrr base) s = .next t ∧
    Calls s t (if base = 7#3 then s.pc else readReg s base)

/-! ### Loads, stores and LEA (43_load_store.md) -/

/-- R92. -/
def Obligations.LoadPcRelative : Prop :=
  (∀ w : Word, w &&& 0xF000#16 = 0x2000#16 → decode w = .ld (w.extractLsb' 9 3) (w.extractLsb' 0 9)) ∧
  ∀ (dr : Reg) (off : BitVec 9) (s : State), ∃ t, exec (.ld dr off) s = .next t ∧
    WritesResult (memRead s (s.pc + signedWord off)).2 t dr (memRead s (s.pc + signedWord off)).1

/-- R93: the pointer is read first, then the data in the state that read left. -/
def Obligations.LoadIndirect : Prop :=
  (∀ w : Word, w &&& 0xF000#16 = 0xA000#16 → decode w = .ldi (w.extractLsb' 9 3) (w.extractLsb' 0 9)) ∧
  ∀ (dr : Reg) (off : BitVec 9) (s s1 s2 : State) (ea v : Word),
    memRead s (s.pc + signedWord off) = (ea, s1) → memRead s1 ea = (v, s2) →
    ∃ t, exec (.ldi dr off) s = .next t ∧ WritesResult s2 t dr v

/-- R94: the address comes from the old base register, DR = BaseR included. -/
def Obligations.LoadBaseOffset : Prop :=
  (∀ w : Word, w &&& 0xF000#16 = 0x6000#16 →
    decode w = .ldr (w.extractLsb' 9 3) (w.extractLsb' 6 3) (w.extractLsb' 0 6)) ∧
  ∀ (dr base : Reg) (off : BitVec 6) (s : State), ∃ t, exec (.ldr dr base off) s = .next t ∧
    WritesResult (memRead s (readReg s base + signedWord off)).2 t dr
      (memRead s (readReg s base + signedWord off)).1

/-- R95. -/
def Obligations.StorePcRelative : Prop :=
  (∀ w : Word, w &&& 0xF000#16 = 0x3000#16 → decode w = .st (w.extractLsb' 9 3) (w.extractLsb' 0 9)) ∧
  ∀ (sr : Reg) (off : BitVec 9) (s : State), ∃ t, exec (.st sr off) s = .next t ∧
    StoresCell s t (s.pc + signedWord off) (readReg s sr)

/-- R96: the pointer read may poll; the store goes where the pointer read points. -/
def Obligations.StoreIndirect : Prop :=
  (∀ w : Word, w &&& 0xF000#16 = 0xB000#16 → decode w = .sti (w.extractLsb' 9 3) (w.extractLsb' 0 9)) ∧
  ∀ (sr : Reg) (off : BitVec 9) (s s1 : State) (ea : Word),
    memRead s (s.pc + signedWord off) = (ea, s1) →
    ∃ t, exec (.sti sr off) s = .next t ∧ StoresCell s1 t ea (readReg s sr)

/-- R97. -/
def Obligations.StoreBaseOffset : Prop :=
  (∀ w : Word, w &&& 0xF000#16 = 0x7000#16 →
    decode w = .str (w.extractLsb' 9 3) (w.extractLsb' 6 3) (w.extractLsb' 0 6)) ∧
  ∀ (sr base : Reg) (off : BitVec 6) (s : State), ∃ t, exec (.str sr base off) s = .next t ∧
    StoresCell s t (readReg s base + signedWord off) (readReg s sr)

/-- R98: no memory access, not even of 0xFE00. -/
def Obligations.LoadEffectiveAddress : Prop :=
  (∀ w : Word, w &&& 0xF000#16 = 0xE000#16 → decode w = .lea (w.extractLsb' 9 3) (w.extractLsb' 0 9)) ∧
  ∀ (dr : Reg) (off : BitVec 9) (s : State), ∃ t, exec (.lea dr off) s = .next t ∧
    WritesResult s t dr (s.pc + signedWord off)

/-! ### TRAP (44_trap.md) -/

/-- R100: the vector selects the routine. -/
def Obligations.TrapDispatchByVector : Prop :=
  (∀ w : Word, w &&& 0xF000#16 = 0xF000#16 →
    ∀ s, exec (decode w) s = exec (.trap (w.extractLsb' 0 8)) s) ∧
  ∀ s : State,
    exec (.trap 0x20#8) s = exec .getc s ∧ exec (.trap 0x21#8) s = exec .out s ∧
    exec (.trap 0x22#8) s = exec .puts s ∧ exec (.trap 0x23#8) s = exec .inp s ∧
    exec (.trap 0x24#8) s = exec .putsp s ∧ exec (.trap 0x25#8) s = exec .halt s ∧
    ∀ v : BitVec 8, v < 0x20#8 ∨ 0x25#8 < v → exec (.trap v) s = exec (.trapUndefined v) s

/-- R99 and R110: a TRAP with a routine's vector completes, GETC and IN where the host supplies a character, PUTS and PUTSP
where the string at R0 ends, with R7 and PC at the address of TRAP + 1 and memory as it was. -/
def Obligations.TrapCompletes : Prop :=
  ∀ (v : BitVec 8) (s : State), 0x20#8 ≤ v → v ≤ 0x25#8 →
    (v = 0x20#8 ∨ v = 0x23#8 → hostWaits s.host = false) →
    (v = 0x22#8 ∨ v = 0x24#8 → ∃ ws, StringAt s (readReg s 0#3) ws) →
    ∃ t, exec (.trap v) s = .next t ∧ readReg t 7#3 = s.pc ∧ t.pc = s.pc ∧
      (∀ a, cell t a = cell s a) ∧ (∀ r, r ≠ 7#3 → r ≠ 0#3 → readReg t r = readReg s r) ∧
      (v ≠ 0x20#8 → v ≠ 0x23#8 → readReg t 0#3 = readReg s 0#3 ∧ t.cond = s.cond) ∧
      t.runState = if v = 0x25#8 then .halted else s.runState

/-- R101. -/
def Obligations.GetcReadsCharacter : Prop :=
  (∀ w : Word, w &&& 0xF0FF#16 = 0xF020#16 → decode w = .getc) ∧
  (∀ s : State, hostWaits s.host = false →
    ∃ t, exec .getc s = .next t ∧ TrapReads s t (nextChar s.host) [])

/-- R102. -/
def Obligations.OutWritesLowByte : Prop :=
  (∀ w : Word, w &&& 0xF0FF#16 = 0xF021#16 → decode w = .out) ∧
  ∀ s : State, ∃ t, exec .out s = .next t ∧
    TrapWrites s t [(readReg s 0#3).setWidth 8] s.runState

/-- R103: the low byte of each cell up to the zero cell. Strings without one are in `StringScanFaults`. -/
def Obligations.PutsWritesString : Prop :=
  (∀ w : Word, w &&& 0xF0FF#16 = 0xF022#16 → decode w = .puts) ∧
  (∀ (s : State) (ws : List Word), StringAt s (readReg s 0#3) ws →
    ∃ t, exec .puts s = .next t ∧ TrapWrites s t (ws.map (fun w => w.setWidth 8)) s.runState)

/-- R104: the prompt, the character, its echo. That the echo is the low byte and R0 keeps all 16 bits is the spec's own
decision D14 (log entry 14). -/
def Obligations.InPromptsReadsEchoes : Prop :=
  (∀ w : Word, w &&& 0xF0FF#16 = 0xF023#16 → decode w = .inp) ∧
  (∀ s : State, hostWaits s.host = false →
    ∃ t, exec .inp s = .next t ∧
      TrapReads s t (nextChar s.host) (Config.inPrompt ++ [(nextChar s.host).setWidth 8]))

/-- R79: GETC and IN stay stuck while the host supplies no character and does not cancel; R7 is written and IN's prompt is
out by then. That the stuck state is an outcome of its own is the model's form of the wait (log entry 8). -/
def Obligations.WaitsForCharacter : Prop :=
  ∀ s : State, hostWaits s.host = true → s.host.cancelIn = none →
    (∃ t, exec .getc s = .fault (.waitingForCharacter t) ∧ TrapWrites s t [] s.runState) ∧
    (∃ t, exec .inp s = .fault (.waitingForCharacter t) ∧ TrapWrites s t Config.inPrompt s.runState)

/-- R105: the low byte of each cell always, then the high byte if it is not zero, up to the zero cell. -/
def Obligations.PutspWritesPackedString : Prop :=
  (∀ w : Word, w &&& 0xF0FF#16 = 0xF024#16 → decode w = .putsp) ∧
  (∀ (s : State) (ws : List Word), StringAt s (readReg s 0#3) ws →
    ∃ t, exec .putsp s = .next t ∧
      TrapWrites s t (ws.flatMap (fun w => w.setWidth 8 ::
        (if w.toNat / 256 = 0 then [] else [BitVec.ofNat 8 (w.toNat / 256)]))) s.runState)

/-- R108: a scan that reaches 0xFE00, or passes 0xFFFF, faults there, and the bytes before the bad cell stay written. Both
faults are the spec's own decision D10 (log entry 12). What the faulted state holds is the spec's own decision D19, carried
by the model's outcome (log entry 11). -/
def Obligations.StringScanFaults : Prop :=
  ∀ (s : State) (ws : List Word) (bad : Nat), BadStringAt s (readReg s 0#3) ws bad →
    (∃ f, exec .puts s = .fault (.fatal (.stringScanOutOfRange bad) f) ∧
      TrapWrites s f (ws.map (fun w => w.setWidth 8)) (.faulted (.stringScanOutOfRange bad))) ∧
    (∃ f, exec .putsp s = .fault (.fatal (.stringScanOutOfRange bad) f) ∧
      TrapWrites s f (ws.flatMap (fun w => w.setWidth 8 ::
        (if w.toNat / 256 = 0 then [] else [BitVec.ofNat 8 (w.toNat / 256)])))
        (.faulted (.stringScanOutOfRange bad)))

/-- R103, R105 and R108: PUTS and PUTSP, under either spelling, answer a next state or fault at 0xFE00 or 0x10000, from
every state, and the cells from x[0] on decide which: a next state exactly where they are a string, a fault at `bad` exactly
where the scan comes to `bad`. Both faults are the spec's own decision D10 (log entry 12). -/
def Obligations.EveryScanEnds : Prop :=
  ∀ (i : Instr) (s : State), i = .puts ∨ i = .putsp ∨ i = .trap 0x22#8 ∨ i = .trap 0x24#8 →
    ((∃ t, exec i s = .next t) ∨
      ∃ bad f, exec i s = .fault (.fatal (.stringScanOutOfRange bad) f) ∧ (bad = 0xFE00 ∨ bad = 0x10000)) ∧
    ((∃ t, exec i s = .next t) ↔ ∃ ws, StringAt s (readReg s 0#3) ws) ∧
    (∀ bad, (∃ f, exec i s = .fault (.fatal (.stringScanOutOfRange bad) f)) ↔
      ∃ ws, BadStringAt s (readReg s 0#3) ws bad)

/-- R106. -/
def Obligations.HaltStopsRun : Prop :=
  (∀ w : Word, w &&& 0xF0FF#16 = 0xF025#16 → decode w = .halt) ∧
  ∀ s : State, ∃ t, exec .halt s = .next t ∧ TrapWrites s t Config.haltMessage .halted ∧
    Successful t ∧ exitCode t.runState = some 0

/-- R107: the fault records the vector; R7 is written and nothing else. That it is a fatal fault is the spec's own decision
D9 (log entry 13), what the faulted state holds its decision D19 (log entry 11). -/
def Obligations.UndefinedVectorFaults : Prop :=
  ∀ (v : BitVec 8) (s : State), v < 0x20#8 ∨ 0x25#8 < v →
    ∃ f, exec (.trapUndefined v) s = .fault (.fatal (.undefinedTrapVector v) f) ∧
      exec (.trap v) s = .fault (.fatal (.undefinedTrapVector v) f) ∧
      TrapWrites s f [] (.faulted (.undefinedTrapVector v))

/-! ### Reserved opcodes and faults (45_reserved.md, 60_exceptions.md) -/

/-- R111 and R112: every word of the two opcodes faults with its opcode, and nothing else is written. -/
def Obligations.ReservedOpcodesFault : Prop :=
  (∀ w : Word, w &&& 0xF000#16 = 0x8000#16 → decode w = .rti) ∧
  (∀ w : Word, w &&& 0xF000#16 = 0xD000#16 → decode w = .res) ∧
  ∀ s : State,
    exec .rti s = .fault (.fatal (.invalidOpcode 0x8#4) { s with runState := .faulted (.invalidOpcode 0x8#4) }) ∧
    exec .res s = .fault (.fatal (.invalidOpcode 0xD#4) { s with runState := .faulted (.invalidOpcode 0xD#4) })

/-- R113 and R114: the fatal faults of the table and no others, each from its instruction, with the run state FAULTED and
PC at the address of the faulting word + 1. Two of the reasons are the spec's own decisions D9 and D10 (log entries 12 and
13), what the faulted state holds is its decision D19 (log entry 11). -/
def Obligations.OnlyListedFaults : Prop :=
  ∀ (i : Instr) (s f : State) (reason : FaultReason), exec i s = .fault (.fatal reason f) →
    f.runState = .faulted reason ∧ f.pc = s.pc ∧ f.mem = s.mem ∧ f.cond = s.cond ∧
    ((i = .rti ∧ reason = .invalidOpcode 0x8#4) ∨ (i = .res ∧ reason = .invalidOpcode 0xD#4) ∨
     (∃ v, ((i = .trap v ∧ (v < 0x20#8 ∨ 0x25#8 < v)) ∨ i = .trapUndefined v) ∧
       reason = .undefinedTrapVector v) ∨
     ((i = .puts ∨ i = .putsp ∨ i = .trap 0x22#8 ∨ i = .trap 0x24#8) ∧
       (reason = .stringScanOutOfRange 0xFE00 ∨ reason = .stringScanOutOfRange 0x10000)))

/-! ### Memory (20_memory.md) -/

/-- R36, R37, R39 and R44: MemRead polls at 0xFE00 only, and reads the cell after that; MemWrite is a plain store
everywhere, 0xFE00 and 0xFE02 included. -/
def Obligations.MemoryAccess : Prop :=
  (∀ s : State, memRead s 0xFE00#16 = (cell (keyboardPoll s) 0xFE00#16, keyboardPoll s)) ∧
  (∀ (s : State) (a : Word), a ≠ 0xFE00#16 → memRead s a = (cell s a, s)) ∧
  (∀ (s : State) (a v : Word), StoresCell s (memWrite s a v) a v)

/-- R38: what a poll does when a key is available and when none is. That the low bits of KBSR are kept is the spec's own
decision D6 (log entry 14). -/
def Obligations.KeyboardPolls : Prop :=
  ∀ s : State,
    (nextKey s.host = true →
      cell (keyboardPoll s) 0xFE00#16 = cell s 0xFE00#16 ||| 0x8000#16 ∧
      cell (keyboardPoll s) 0xFE02#16 = nextChar s.host ∧
      (∀ a, a ≠ 0xFE00#16 → a ≠ 0xFE02#16 → cell (keyboardPoll s) a = cell s a) ∧
      (keyboardPoll s).host.consumed = s.host.consumed ++ [nextChar s.host] ∧
      (keyboardPoll s).host.chars = s.host.chars.tail) ∧
    (nextKey s.host = false →
      cell (keyboardPoll s) 0xFE00#16 = 0x0000#16 ∧
      (∀ a, a ≠ 0xFE00#16 → cell (keyboardPoll s) a = cell s a) ∧
      (keyboardPoll s).host.consumed = s.host.consumed ∧ (keyboardPoll s).host.chars = s.host.chars) ∧
    (∀ r, readReg (keyboardPoll s) r = readReg s r) ∧ (keyboardPoll s).pc = s.pc ∧
    (keyboardPoll s).cond = s.cond ∧ (keyboardPoll s).runState = s.runState ∧
    (keyboardPoll s).host.output = s.host.output

/-- R127: the host's listed answers and characters are given in order, each once (the lists are the model's form of the
host: log entries 6 and 7). -/
def Obligations.HostAnswersInOrder : Prop :=
  ∀ s : State,
    (∀ k ks, s.host.keys = k :: ks → nextKey s.host = k ∧ (keyboardPoll s).host.keys = ks) ∧
    (∀ c cs, s.host.chars = c :: cs → nextChar s.host = c ∧
      (nextKey s.host = true → (keyboardPoll s).host.chars = cs) ∧
      (∀ t, exec .getc s = .next t → t.host.chars = cs) ∧ (∀ t, exec .inp s = .next t → t.host.chars = cs))

/-- R50: a store is seen by the next fetch of that address; 0xFE00, where a fetch polls, is the exception. -/
def Obligations.StoredCodeIsFetched : Prop :=
  ∀ (s : State) (a v : Word), a ≠ 0xFE00#16 → (fetch (setPc (memWrite s a v) a)).1 = v

/-! ### The loop (40_execution_loop.md) -/

/-- R73: a step runs the instruction that the word at PC decodes to, with PC incremented before its effects; a fetch from
0xFE00 polls first (the spec's own decision D5, log entry 14). The host's countdown to a cancellation, the model's own
(log entry 9), is one boundary lower. -/
def Obligations.StepRunsDecodedInstruction : Prop :=
  ∀ s : State, s.runState = .running →
    (s.host.cancelIn = none → s.pc ≠ 0xFE00#16 →
      step s = exec (decode (cell s s.pc)) { s with pc := s.pc + 1#16 }) ∧
    (s.host.cancelIn = none → s.pc = 0xFE00#16 →
      step s = exec (decode (cell (keyboardPoll s) 0xFE00#16)) { keyboardPoll s with pc := 0xFE01#16 }) ∧
    (∀ n, s.host.cancelIn = some (n + 1) → s.pc ≠ 0xFE00#16 →
      step s = exec (decode (cell s s.pc))
        { s with pc := s.pc + 1#16, host := { s.host with cancelIn := some n } }) ∧
    (∀ n, s.host.cancelIn = some (n + 1) → s.pc = 0xFE00#16 →
      step s = exec (decode (cell (keyboardPoll s) 0xFE00#16))
        { keyboardPoll s with
          pc := 0xFE01#16, host := { (keyboardPoll s).host with cancelIn := some n } })

/-- R24 and R72: no step leaves a terminal run state. That `step` then answers the fault noStep with that state is the
model's choice (log entry 17); the rules say only that no step exists. -/
def Obligations.TerminalStatesHaveNoStep : Prop :=
  ∀ s : State, s.runState.terminal = true → step s = .fault (.noStep s)

/-- R118: the host may cancel at a boundary, and while GETC or IN waits for a character; the output written so far is
kept. The countdown is the model's form of the host's liberty (log entry 9). The frame during a wait is that of the note
under 2.6 of 95_test_vectors.md; R118 says that the registers and memory of a cancelled run are no observable result. -/
def Obligations.HostCancels : Prop :=
  (∀ s : State, s.runState = .running → s.host.cancelIn = some 0 →
    step s = .next { s with runState := .cancelled }) ∧
  (∀ (s : State) (n : Nat), hostWaits s.host = true → s.host.cancelIn = some n →
    (∃ t, exec .getc s = .next t ∧ TrapWrites s t [] .cancelled) ∧
    (∃ t, exec .inp s = .next t ∧ TrapWrites s t Config.inPrompt .cancelled))

/-- R79 and R118: the outcomes of a step while RUNNING: a next state that is RUNNING, or HALTED by HALT alone, or CANCELLED
by the host alone; a fatal fault; or a wait for a character of a host that never cancels. Nothing is refused. The countdown
that says when the host cancels is the model's own form (log entry 9), and so is the outcome of a wait (log entry 8). -/
def Obligations.StepOutcomes : Prop :=
  ∀ s : State, s.runState = .running →
    (∃ t, step s = .next t ∧ (t.runState = .running ∨
      (t.runState = .halted ∧ decode (fetch s).1 = .halt) ∨
      (t.runState = .cancelled ∧ (s.host.cancelIn = some 0 ∨
        (s.host.cancelIn ≠ none ∧ hostWaits (fetch s).2.host = true ∧
          (decode (fetch s).1 = .getc ∨ decode (fetch s).1 = .inp)))))) ∨
    (∃ reason f, step s = .fault (.fatal reason f) ∧ f.runState = .faulted reason) ∨
    (∃ w, step s = .fault (.waitingForCharacter w) ∧ w.runState = .running ∧ s.host.cancelIn = none ∧
      hostWaits (fetch s).2.host = true ∧ (decode (fetch s).1 = .getc ∨ decode (fetch s).1 = .inp))

/-! ### What each instruction may write (10_state.md, 20_memory.md) -/

/-- R19: the general registers each instruction writes. -/
def Obligations.RegisterWriters : Prop :=
  ∀ (i : Instr) (s t : State), exec i s = .next t → ∀ r, r ∉ regTargets i → readReg t r = readReg s r

/-- R23 and R76: only ADD, AND, NOT, LD, LDI, LDR, LEA, GETC and IN write COND. -/
def Obligations.CondWriters : Prop :=
  ∀ (i : Instr) (s t : State), exec i s = .next t → setsCond i = false → t.cond = s.cond

/-- R21: after the fetch increment PC is written by BR when taken, JMP, RET, JSR and JSRR only; a fault (R113, in the form of
log entry 11) and a wait (in the form of log entry 8) leave it too. That JSRR R7 falls through is the spec's own decision D18
(R91, log entry 14). -/
def Obligations.PcWriters : Prop :=
  (∀ (i : Instr) (s f : State) (reason : FaultReason), exec i s = .fault (.fatal reason f) → f.pc = s.pc) ∧
  (∀ (i : Instr) (s w : State), exec i s = .fault (.waitingForCharacter w) → w.pc = s.pc) ∧
  ∀ (i : Instr) (s t : State), exec i s = .next t →
    match i with
    | .br n z p off =>
      t.pc = if (n = true ∧ s.cond = .n) ∨ (z = true ∧ s.cond = .z) ∨ (p = true ∧ s.cond = .p)
        then s.pc + signedWord off else s.pc
    | .jmp base => t.pc = readReg s base
    | .ret => t.pc = readReg s 7#3
    | .jsr off => t.pc = s.pc + signedWord off
    | .jsrr base => t.pc = if base = 7#3 then s.pc else readReg s base
    | _ => t.pc = s.pc

/-- R42, R44 and R110: a cell changes only where ST, STI or STR stores, or is KBSR or KBDR under a data read of 0xFE00. -/
def Obligations.MemoryWriters : Prop :=
  ∀ (i : Instr) (s t : State), exec i s = .next t → ∀ a, dataWrite i s ≠ some a →
    ((a ≠ 0xFE00#16 ∧ a ≠ 0xFE02#16) ∨ 0xFE00#16 ∉ dataReads i s) → cell t a = cell s a

/-- R44 and R28: an instruction takes input from the host only if it is GETC or IN, or reads 0xFE00. -/
def Obligations.InputConsumers : Prop :=
  ∀ (i : Instr) (s t : State), exec i s = .next t → takesChar i = false → 0xFE00#16 ∉ dataReads i s →
    t.host.consumed = s.host.consumed ∧ t.host.chars = s.host.chars ∧ t.host.keys = s.host.keys

/-- R28: an instruction that takes no input runs alike whatever the host will answer and whatever it has been sent. -/
def Obligations.HostUnseenWithoutInput : Prop :=
  ∀ (i : Instr) (s t : State) (h : HostSide), exec i s = .next t → takesChar i = false →
    0xFE00#16 ∉ dataReads i s →
    ∃ u, exec i { s with host := h } = .next u ∧ u.regs = t.regs ∧ u.pc = t.pc ∧ u.cond = t.cond ∧
      u.mem = t.mem ∧ u.runState = t.runState

/-! ### Invariants -/

/-- Every step keeps memory in its canonical form, the model's own representation (log entry 2). -/
def Obligations.StepKeepsMemoryCanonical : Prop :=
  ∀ s t : State, Memory.wf s.mem → step s = .next t → Memory.wf t.mem

/-- Memory is in its canonical form (log entry 2) after reset, with every cell 0x0000 (R33). -/
def Obligations.ResetMemoryCanonical : Prop :=
  Memory.wf State.reset.mem ∧ ∀ a, cell State.reset a = 0x0000#16

/-- R29: along every run the output stream and the input history only grow (the streams are the spec's own decision D13,
log entry 15). -/
def Obligations.StreamsOnlyGrow : Prop :=
  ∀ s t : State, Reaches s t → s.host.output <+: t.host.output ∧ s.host.consumed <+: t.host.consumed

/-! ### Reset and image loading (10_state.md, 70_reset_and_hazards.md) -/

/-- R30 to R33: the state before any image, for every initGPR (the spec's own decision D4, log entry 1) and every host. -/
def Obligations.InitialState : Prop :=
  ∀ (g : Vector Word 8) (h : HostSide),
    (∀ r : Reg, readReg (State.initial g h) r = g[r.toNat]'(r.isLt)) ∧
    (State.initial g h).pc = 0x3000#16 ∧ (State.initial g h).cond = .z ∧
    (∀ a, cell (State.initial g h) a = 0x0000#16) ∧ (State.initial g h).runState = .running ∧
    (State.initial g h).host.output = [] ∧ (State.initial g h).host.consumed = []

/-- R132: the origin and the words of an image are read big-endian, and an image written out as bytes and read back is the
same image. -/
def Obligations.ImageFormat : Prop :=
  (∀ (hi lo : Byte) (rest : List Byte) (i : Image), parseImage (hi :: lo :: rest) = .ok i →
    i.origin.toNat = hi.toNat * 256 + lo.toNat ∧ 2 * i.words.length = rest.length ∧
    ∀ k, (h : k < i.words.length) →
      (i.words[k]).toNat = (rest.getD (2 * k) 0x00#8).toNat * 256 + (rest.getD (2 * k + 1) 0x00#8).toNat) ∧
  (∀ i : Image, i.origin.toNat + i.words.length ≤ 0x10000 → parseImage (bytesOfImage i) = .ok i)

/-- R135: exactly the malformed images are refused: the spec's own decision D15 (log entry 16). -/
def Obligations.MalformedImagesRefused : Prop :=
  ∀ b : List Byte, (∃ e, parseImage b = .error e) ↔
    (b.length < 2 ∨ b.length % 2 = 1 ∨
      ∃ hi lo rest, b = hi :: lo :: rest ∧ 0x10000 < hi.toNat * 256 + lo.toNat + rest.length / 2)

/-- R133: loading an image writes its words from the origin on and nothing else. -/
def Obligations.ImagePlacement : Prop :=
  ∀ (s : State) (i : Image), i.origin.toNat + i.words.length ≤ 0x10000 →
    (∀ k, (h : k < i.words.length) →
      cell (loadImage s i) (BitVec.ofNat 16 (i.origin.toNat + k)) = i.words[k]) ∧
    (∀ a : Word, a.toNat < i.origin.toNat ∨ i.origin.toNat + i.words.length ≤ a.toNat →
      cell (loadImage s i) a = cell s a) ∧
    (loadImage s i).regs = s.regs ∧ (loadImage s i).pc = s.pc ∧ (loadImage s i).cond = s.cond ∧
    (loadImage s i).runState = s.runState ∧ (loadImage s i).host = s.host

/-- R134: of two images the later one wins where both cover a cell, and a cell covered by neither is 0x0000. -/
def Obligations.LaterImageWins : Prop :=
  ∀ (g : Vector Word 8) (h : HostSide) (i j : Image),
    i.origin.toNat + i.words.length ≤ 0x10000 → j.origin.toNat + j.words.length ≤ 0x10000 →
    ∃ s, launch g h [bytesOfImage i, bytesOfImage j] = .ok s ∧
      (∀ k, (hk : k < j.words.length) → cell s (BitVec.ofNat 16 (j.origin.toNat + k)) = j.words[k]) ∧
      (∀ k, (hk : k < i.words.length) →
        i.origin.toNat + k < j.origin.toNat ∨ j.origin.toNat + j.words.length ≤ i.origin.toNat + k →
        cell s (BitVec.ofNat 16 (i.origin.toNat + k)) = i.words[k]) ∧
      (∀ a : Word, a.toNat < i.origin.toNat ∨ i.origin.toNat + i.words.length ≤ a.toNat →
        a.toNat < j.origin.toNat ∨ j.origin.toNat + j.words.length ≤ a.toNat → cell s a = 0x0000#16)

/-- R131, R136 and R137: whatever images a launch loads, the run starts at 0x3000 with COND = Z and the registers of
initGPR, and both streams empty (R33); memory is in its canonical form, the model's own representation (log entry 2). With
no image, or one bad image (the spec's own decision D15, log entry 16), nothing starts. -/
def Obligations.LaunchStartState : Prop :=
  (∀ (g : Vector Word 8) (h : HostSide) (images : List (List Byte)) (s : State),
    launch g h images = .ok s →
      s.pc = 0x3000#16 ∧ s.cond = .z ∧ s.regs = g ∧ s.runState = .running ∧ s.host.output = [] ∧
      s.host.consumed = [] ∧ Memory.wf s.mem) ∧
  (∀ (g : Vector Word 8) (h : HostSide), launch g h [] = .error .noImage) ∧
  (∀ (g : Vector Word 8) (h : HostSide) (images : List (List Byte)) (b : List Byte) (e : LaunchError),
    b ∈ images → parseImage b = .error e → ∃ e', launch g h images = .error e')
end

