-- ==== Sys2Proof/Laws/Decode.lean ====
section
/-!
SUPPORT. Decoding: what a match under a mask says of a word's fields, and the fields of an encoded word.
-/

namespace Sys2Proof

/-! ### A word that matches a row of the table -/

/-- A mask that covers a bit fixes it. -/
theorem getLsbD_of_match {w m c : Word} {i : Nat} (hm : m.getLsbD i = true) (h : w &&& m = c) :
    w.getLsbD i = c.getLsbD i := by
  rw [← h, BitVec.getLsbD_and, hm, Bool.and_true]

/-- A mask that covers a field fixes it. -/
theorem extractLsb'_of_match {w m c : Word} {start len : Nat} (hm : m.extractLsb' start len = BitVec.allOnes len)
    (h : w &&& m = c) : w.extractLsb' start len = c.extractLsb' start len := by
  have h1 : w.extractLsb' start len &&& m.extractLsb' start len = c.extractLsb' start len := by
    rw [← BitVec.extractLsb'_and, h]
  rwa [hm, BitVec.and_allOnes] at h1

/-- A mask that covers the opcode field fixes it. -/
theorem fieldOpcode_of_match {w m c : Word} (hm : m.extractLsb' 12 4 = 0xF#4) (h : w &&& m = c) :
    fieldOpcode w = c.extractLsb' 12 4 :=
  extractLsb'_of_match hm h

/-- Every field of one bit or more that a word agrees with another on, under a mask, is the same field. -/
theorem extractLsb'_of_agree {w w' m : Word} {start len : Nat} (hm : m.extractLsb' start len = BitVec.allOnes len)
    (h : w &&& m = w' &&& m) : w.extractLsb' start len = w'.extractLsb' start len := by
  have h1 : w.extractLsb' start len &&& m.extractLsb' start len =
      w'.extractLsb' start len &&& m.extractLsb' start len := by
    rw [← BitVec.extractLsb'_and, ← BitVec.extractLsb'_and, h]
  rwa [hm, BitVec.and_allOnes, BitVec.and_allOnes] at h1

/-! ### The opcode field of an encoded word -/

theorem opcodeOfBits_opcodeBits (o : Opcode) : opcodeOfBits (opcodeBits o) = o := by cases o <;> rfl

/-- The bits of a field at its place. -/
theorem getLsbD_placeField {n : Nat} (f : BitVec n) (lo i : Nat) :
    (placeField f lo).getLsbD i = (decide (i < 16) && (!decide (i < lo) && f.getLsbD (i - lo))) := by
  unfold placeField
  rw [BitVec.getLsbD_shiftLeft, BitVec.getLsbD_setWidth]
  by_cases h : i < 16 <;> by_cases h' : i < lo <;> simp [h, h']
  intro _; omega

/-- A field at its place leaves the bits above it alone. -/
theorem getLsbD_placeField_above {n : Nat} (f : BitVec n) {lo i : Nat} (h : lo + n ≤ i) :
    (placeField f lo).getLsbD i = false := by
  rw [getLsbD_placeField, BitVec.getLsbD_of_ge f (i - lo) (by omega)]
  simp

/-- The operand fields leave the opcode's bits alone. -/
theorem encodeOperands_above (i : Instr) {k : Nat} (h : 12 ≤ k) : (encodeOperands i).getLsbD k = false := by
  cases i <;> simp only [encodeOperands, BitVec.getLsbD_or, Bool.or_eq_false_iff, BitVec.getLsbD_zero] <;>
    (try refine ⟨?_, ?_⟩) <;> (try refine ⟨?_, ?_⟩) <;> (try refine ⟨?_, ?_⟩) <;>
    exact getLsbD_placeField_above _ (by omega)

/-- The opcode field of an encoded word is the opcode's number. -/
theorem fieldOpcode_encode (i : Instr) : fieldOpcode (encode i) = opcodeBits i.opcode := by
  apply BitVec.eq_of_getLsbD_eq
  intro k hk
  rw [fieldOpcode, BitVec.getLsbD_extractLsb', encode, BitVec.getLsbD_or,
    encodeOperands_above i (by omega), getLsbD_placeField]
  have h1 : 12 + k < 16 := by omega
  have h2 : ¬ 12 + k < 12 := by omega
  simp [hk, h1, h2]

end Sys2Proof
end

