-- ==== Sys2Proof/Laws/State.lean ====
section
/-!
SUPPORT. The small lemmas of State: one per field per update, and what each update leaves of a register or a cell.
-/

namespace Sys2Proof.Machine

/-! ### writeReg -/

@[simp] theorem writeReg_regs (s : State) (r : Reg) (v : Word) : (writeReg s r v).regs = s.regs.set r.toNat v r.isLt := rfl
@[simp] theorem writeReg_pc (s : State) (r : Reg) (v : Word) : (writeReg s r v).pc = s.pc := rfl
@[simp] theorem writeReg_cond (s : State) (r : Reg) (v : Word) : (writeReg s r v).cond = s.cond := rfl
@[simp] theorem writeReg_mem (s : State) (r : Reg) (v : Word) : (writeReg s r v).mem = s.mem := rfl
@[simp] theorem writeReg_runState (s : State) (r : Reg) (v : Word) : (writeReg s r v).runState = s.runState := rfl
@[simp] theorem writeReg_host (s : State) (r : Reg) (v : Word) : (writeReg s r v).host = s.host := rfl
@[simp] theorem cell_writeReg (s : State) (r : Reg) (v : Word) (x : Word) : cell (writeReg s r v) x = cell s x := rfl

/-! ### setPc -/

@[simp] theorem setPc_regs (s : State) (v : Word) : (setPc s v).regs = s.regs := rfl
@[simp] theorem setPc_pc (s : State) (v : Word) : (setPc s v).pc = v := rfl
@[simp] theorem setPc_cond (s : State) (v : Word) : (setPc s v).cond = s.cond := rfl
@[simp] theorem setPc_mem (s : State) (v : Word) : (setPc s v).mem = s.mem := rfl
@[simp] theorem setPc_runState (s : State) (v : Word) : (setPc s v).runState = s.runState := rfl
@[simp] theorem setPc_host (s : State) (v : Word) : (setPc s v).host = s.host := rfl
@[simp] theorem readReg_setPc (s : State) (v : Word) (q : Reg) : readReg (setPc s v) q = readReg s q := rfl
@[simp] theorem cell_setPc (s : State) (v : Word) (x : Word) : cell (setPc s v) x = cell s x := rfl

/-! ### setCond -/

@[simp] theorem setCond_regs (s : State) (c : Cond) : (setCond s c).regs = s.regs := rfl
@[simp] theorem setCond_pc (s : State) (c : Cond) : (setCond s c).pc = s.pc := rfl
@[simp] theorem setCond_cond (s : State) (c : Cond) : (setCond s c).cond = c := rfl
@[simp] theorem setCond_mem (s : State) (c : Cond) : (setCond s c).mem = s.mem := rfl
@[simp] theorem setCond_runState (s : State) (c : Cond) : (setCond s c).runState = s.runState := rfl
@[simp] theorem setCond_host (s : State) (c : Cond) : (setCond s c).host = s.host := rfl
@[simp] theorem readReg_setCond (s : State) (c : Cond) (q : Reg) : readReg (setCond s c) q = readReg s q := rfl
@[simp] theorem cell_setCond (s : State) (c : Cond) (x : Word) : cell (setCond s c) x = cell s x := rfl

/-! ### setRunState -/

@[simp] theorem setRunState_regs (s : State) (r : RunState) : (setRunState s r).regs = s.regs := rfl
@[simp] theorem setRunState_pc (s : State) (r : RunState) : (setRunState s r).pc = s.pc := rfl
@[simp] theorem setRunState_cond (s : State) (r : RunState) : (setRunState s r).cond = s.cond := rfl
@[simp] theorem setRunState_mem (s : State) (r : RunState) : (setRunState s r).mem = s.mem := rfl
@[simp] theorem setRunState_runState (s : State) (r : RunState) : (setRunState s r).runState = r := rfl
@[simp] theorem setRunState_host (s : State) (r : RunState) : (setRunState s r).host = s.host := rfl
@[simp] theorem readReg_setRunState (s : State) (r : RunState) (q : Reg) : readReg (setRunState s r) q = readReg s q := rfl
@[simp] theorem cell_setRunState (s : State) (r : RunState) (x : Word) : cell (setRunState s r) x = cell s x := rfl

/-! ### setHost -/

@[simp] theorem setHost_regs (s : State) (h : HostSide) : (setHost s h).regs = s.regs := rfl
@[simp] theorem setHost_pc (s : State) (h : HostSide) : (setHost s h).pc = s.pc := rfl
@[simp] theorem setHost_cond (s : State) (h : HostSide) : (setHost s h).cond = s.cond := rfl
@[simp] theorem setHost_mem (s : State) (h : HostSide) : (setHost s h).mem = s.mem := rfl
@[simp] theorem setHost_runState (s : State) (h : HostSide) : (setHost s h).runState = s.runState := rfl
@[simp] theorem setHost_host (s : State) (h : HostSide) : (setHost s h).host = h := rfl
@[simp] theorem readReg_setHost (s : State) (h : HostSide) (q : Reg) : readReg (setHost s h) q = readReg s q := rfl
@[simp] theorem cell_setHost (s : State) (h : HostSide) (x : Word) : cell (setHost s h) x = cell s x := rfl

/-! ### setCell -/

@[simp] theorem setCell_regs (s : State) (a v : Word) : (setCell s a v).regs = s.regs := rfl
@[simp] theorem setCell_pc (s : State) (a v : Word) : (setCell s a v).pc = s.pc := rfl
@[simp] theorem setCell_cond (s : State) (a v : Word) : (setCell s a v).cond = s.cond := rfl
@[simp] theorem setCell_mem (s : State) (a v : Word) : (setCell s a v).mem = memStore s.mem a.toNat v := rfl
@[simp] theorem setCell_runState (s : State) (a v : Word) : (setCell s a v).runState = s.runState := rfl
@[simp] theorem setCell_host (s : State) (a v : Word) : (setCell s a v).host = s.host := rfl
@[simp] theorem readReg_setCell (s : State) (a v : Word) (q : Reg) : readReg (setCell s a v) q = readReg s q := rfl

/-! ### Registers: a read after a write -/

@[simp] theorem readReg_writeReg_same (s : State) (r : Reg) (v : Word) : readReg (writeReg s r v) r = v := by
  simp [readReg, writeReg]

theorem readReg_writeReg_other (s : State) {q r : Reg} (v : Word) (h : q ≠ r) :
    readReg (writeReg s r v) q = readReg s q := by
  have : r.toNat ≠ q.toNat := fun e => h (BitVec.eq_of_toNat_eq e.symm)
  simp [readReg, writeReg, this]

theorem readReg_writeReg (s : State) (q r : Reg) (v : Word) :
    readReg (writeReg s r v) q = if q = r then v else readReg s q := by
  split
  · next h => subst h; simp
  · next h => exact readReg_writeReg_other s v h

/-! ### The state after reset -/

@[simp] theorem initial_regs (g : Vector Word 8) (h : HostSide) : (State.initial g h).regs = g := rfl
@[simp] theorem initial_pc (g : Vector Word 8) (h : HostSide) : (State.initial g h).pc = Config.startPC := rfl
@[simp] theorem initial_cond (g : Vector Word 8) (h : HostSide) : (State.initial g h).cond = .z := rfl
@[simp] theorem initial_mem (g : Vector Word 8) (h : HostSide) : (State.initial g h).mem = [] := rfl
@[simp] theorem initial_runState (g : Vector Word 8) (h : HostSide) : (State.initial g h).runState = .running := rfl

end Sys2Proof.Machine
end

