-- ==== Sys2Proof/Laws/Memory.lean ====
section
/-!
SUPPORT. Memory: a read after a write, and that every memory operation keeps the canonical form.
-/

namespace Sys2Proof.Machine

/-! ### A read after a write -/

theorem memLookup_filter_other (m : Memory) {a b : Nat} (h : b ≠ a) :
    memLookup (m.filter (fun c => c.1 != a)) b = memLookup m b := by
  induction m with
  | nil => rfl
  | cons c rest ih =>
    obtain ⟨k, v⟩ := c
    by_cases hk : k = a
    · subst hk
      simp [memLookup, ih, Ne.symm h]
    · simp [memLookup, hk, ih]

theorem memLookup_filter_same (m : Memory) (a : Nat) :
    memLookup (m.filter (fun c => c.1 != a)) a = 0x0000#16 := by
  induction m with
  | nil => rfl
  | cons c rest ih =>
    obtain ⟨k, v⟩ := c
    by_cases hk : k = a
    · simp [hk, ih]
    · simp [memLookup, hk, ih]

theorem memLookup_insert_same (m : Memory) (a : Nat) (v : Word) (h : ∀ c ∈ m, c.1 ≠ a) :
    memLookup (memInsert m a v) a = v := by
  induction m with
  | nil => simp [memInsert, memLookup]
  | cons c rest ih =>
    obtain ⟨k, w⟩ := c
    have hk : k ≠ a := h (k, w) (by simp)
    have hrest : ∀ c ∈ rest, c.1 ≠ a := fun c hc => h c (by simp [hc])
    unfold memInsert
    split
    · simp [memLookup]
    · simp [memLookup, hk, ih hrest]

theorem memLookup_insert_other (m : Memory) {a b : Nat} (v : Word) (h : b ≠ a) :
    memLookup (memInsert m a v) b = memLookup m b := by
  induction m with
  | nil => simp [memInsert, memLookup, Ne.symm h]
  | cons c rest ih =>
    obtain ⟨k, w⟩ := c
    unfold memInsert
    split
    · simp [memLookup, Ne.symm h]
    · simp [memLookup, ih]

/-- A read after a store to the same address gives the value stored, in every memory. -/
@[simp] theorem memLookup_store_same (m : Memory) (a : Nat) (v : Word) : memLookup (memStore m a v) a = v := by
  unfold memStore
  split
  · next h => rw [memLookup_filter_same, h]
  · exact memLookup_insert_same _ a v (by simp)

/-- A store leaves every other address alone, in every memory. -/
theorem memLookup_store_other (m : Memory) {a b : Nat} (v : Word) (h : b ≠ a) :
    memLookup (memStore m a v) b = memLookup m b := by
  unfold memStore
  split
  · exact memLookup_filter_other m h
  · rw [memLookup_insert_other _ v h, memLookup_filter_other m h]

@[simp] theorem cell_setCell_same (s : State) (a v : Word) : cell (setCell s a v) a = v := by
  simp [cell]

theorem cell_setCell_other (s : State) {a b : Word} (v : Word) (h : b ≠ a) :
    cell (setCell s a v) b = cell s b := by
  have : b.toNat ≠ a.toNat := fun e => h (BitVec.eq_of_toNat_eq e)
  simp [cell, memLookup_store_other _ v this]

theorem cell_setCell (s : State) (a b v : Word) :
    cell (setCell s a v) b = if b = a then v else cell s b := by
  split
  · next h => subst h; simp
  · next h => exact cell_setCell_other s v h

/-! ### The canonical form -/

theorem wf_nil : Memory.wf [] := by simp [Memory.wf]

theorem wf_filter {m : Memory} (p : Nat × Word → Bool) (h : Memory.wf m) : Memory.wf (m.filter p) :=
  ⟨h.1.filter p, fun c hc => h.2 c (List.mem_of_mem_filter hc)⟩

theorem mem_memInsert {m : Memory} {a : Nat} {v : Word} {c : Nat × Word} (h : c ∈ memInsert m a v) :
    c = (a, v) ∨ c ∈ m := by
  induction m with
  | nil => simpa [memInsert] using h
  | cons d rest ih =>
    obtain ⟨k, w⟩ := d
    unfold memInsert at h
    split at h
    · simpa using h
    · rcases List.mem_cons.mp h with h | h
      · exact .inr (by simp [h])
      · rcases ih h with h | h
        · exact .inl h
        · exact .inr (by simp [h])

theorem pairwise_memInsert {m : Memory} {a : Nat} (v : Word) (h : m.Pairwise (fun x y => x.1 < y.1))
    (hne : ∀ c ∈ m, c.1 ≠ a) : (memInsert m a v).Pairwise (fun x y => x.1 < y.1) := by
  induction m with
  | nil => simp [memInsert]
  | cons d rest ih =>
    obtain ⟨k, w⟩ := d
    obtain ⟨hk, hrest⟩ := List.pairwise_cons.mp h
    have hka : k ≠ a := hne (k, w) (by simp)
    unfold memInsert
    split
    · next hlt =>
      refine List.pairwise_cons.mpr ⟨fun c hc => ?_, h⟩
      rcases List.mem_cons.mp hc with rfl | hc
      · exact hlt
      · exact Nat.lt_trans hlt (hk c hc)
    · next hlt =>
      refine List.pairwise_cons.mpr ⟨fun c hc => ?_, ih hrest (fun c hc => hne c (by simp [hc]))⟩
      rcases mem_memInsert hc with rfl | hc
      · show k < a; omega
      · exact hk c hc

/-- A store inside the address space keeps the canonical form. -/
theorem wf_memStore {m : Memory} {a : Nat} (v : Word) (h : Memory.wf m) (ha : a < Config.memoryEnd) :
    Memory.wf (memStore m a v) := by
  unfold memStore
  split
  · exact wf_filter _ h
  · next hv =>
    obtain ⟨hp, hc⟩ := wf_filter (fun c => c.1 != a) h
    refine ⟨pairwise_memInsert v hp (by simp), fun c hin => ?_⟩
    rcases mem_memInsert hin with rfl | hin
    · exact ⟨ha, hv⟩
    · exact hc c hin

theorem wf_setCell (s : State) (a v : Word) (h : Memory.wf s.mem) : Memory.wf (setCell s a v).mem :=
  wf_memStore v h a.isLt

theorem wf_reset : Memory.wf State.reset.mem := wf_nil

end Sys2Proof.Machine
end

