-- ==== Sys2Proof/Laws/Ops.lean ====
section
/-!
SUPPORT. One lemma, or a few, per shared operation: everything it can do.
-/

namespace Sys2Proof.Machine

/-! ### The host's side: what a poll's answer and a character's delivery change -/

@[simp] theorem nextChar_afterKey (h : HostSide) : nextChar (afterKey h) = nextChar h := rfl
@[simp] theorem afterKey_output (h : HostSide) : (afterKey h).output = h.output := rfl
@[simp] theorem afterKey_consumed (h : HostSide) : (afterKey h).consumed = h.consumed := rfl
@[simp] theorem afterKey_chars (h : HostSide) : (afterKey h).chars = h.chars := rfl
@[simp] theorem afterKey_silent (h : HostSide) : (afterKey h).silent = h.silent := rfl
@[simp] theorem afterKey_cancelIn (h : HostSide) : (afterKey h).cancelIn = h.cancelIn := rfl
@[simp] theorem afterChar_output (h : HostSide) : (afterChar h).output = h.output := rfl
@[simp] theorem afterChar_consumed (h : HostSide) : (afterChar h).consumed = h.consumed ++ [nextChar h] := rfl
@[simp] theorem afterChar_silent (h : HostSide) : (afterChar h).silent = h.silent := rfl
@[simp] theorem afterChar_cancelIn (h : HostSide) : (afterChar h).cancelIn = h.cancelIn := rfl
@[simp] theorem afterChar_polls (h : HostSide) : (afterChar h).polls = h.polls := rfl

@[simp] theorem putBytes_host (s : State) (bs : List Byte) :
    (putBytes s bs).host = { s.host with output := s.host.output ++ bs } := rfl
@[simp] theorem putBytes_regs (s : State) (bs : List Byte) : (putBytes s bs).regs = s.regs := rfl
@[simp] theorem putBytes_pc (s : State) (bs : List Byte) : (putBytes s bs).pc = s.pc := rfl
@[simp] theorem putBytes_cond (s : State) (bs : List Byte) : (putBytes s bs).cond = s.cond := rfl
@[simp] theorem putBytes_mem (s : State) (bs : List Byte) : (putBytes s bs).mem = s.mem := rfl
@[simp] theorem putBytes_runState (s : State) (bs : List Byte) : (putBytes s bs).runState = s.runState := rfl
@[simp] theorem readReg_putBytes (s : State) (bs : List Byte) (r : Reg) :
    readReg (putBytes s bs) r = readReg s r := rfl
@[simp] theorem cell_putBytes (s : State) (bs : List Byte) (a : Word) : cell (putBytes s bs) a = cell s a := rfl
@[simp] theorem putBytes_putBytes (s : State) (xs ys : List Byte) :
    putBytes (putBytes s xs) ys = putBytes s (xs ++ ys) := by
  simp [putBytes, setHost]

/-! ### Results -/

@[simp] theorem writeResult_cond (s : State) (r : Reg) (v : Word) : (writeResult s r v).cond = condOf v := rfl
@[simp] theorem writeResult_pc (s : State) (r : Reg) (v : Word) : (writeResult s r v).pc = s.pc := rfl
@[simp] theorem writeResult_mem (s : State) (r : Reg) (v : Word) : (writeResult s r v).mem = s.mem := rfl
@[simp] theorem writeResult_runState (s : State) (r : Reg) (v : Word) :
    (writeResult s r v).runState = s.runState := rfl
@[simp] theorem writeResult_host (s : State) (r : Reg) (v : Word) : (writeResult s r v).host = s.host := rfl
@[simp] theorem cell_writeResult (s : State) (r : Reg) (v a : Word) : cell (writeResult s r v) a = cell s a := rfl

theorem readReg_writeResult (s : State) (q r : Reg) (v : Word) :
    readReg (writeResult s r v) q = if q = r then v else readReg s q :=
  readReg_writeReg s q r v

@[simp] theorem readReg_writeResult_same (s : State) (r : Reg) (v : Word) : readReg (writeResult s r v) r = v :=
  readReg_writeReg_same s r v

/-! ### The keyboard poll and MemRead -/

@[simp] theorem keyboardPoll_regs (s : State) : (keyboardPoll s).regs = s.regs := by
  unfold keyboardPoll; split <;> rfl
@[simp] theorem keyboardPoll_pc (s : State) : (keyboardPoll s).pc = s.pc := by
  unfold keyboardPoll; split <;> rfl
@[simp] theorem keyboardPoll_cond (s : State) : (keyboardPoll s).cond = s.cond := by
  unfold keyboardPoll; split <;> rfl
@[simp] theorem keyboardPoll_runState (s : State) : (keyboardPoll s).runState = s.runState := by
  unfold keyboardPoll; split <;> rfl
@[simp] theorem keyboardPoll_output (s : State) : (keyboardPoll s).host.output = s.host.output := by
  unfold keyboardPoll; split <;> rfl
@[simp] theorem keyboardPoll_cancelIn (s : State) : (keyboardPoll s).host.cancelIn = s.host.cancelIn := by
  unfold keyboardPoll; split <;> rfl
@[simp] theorem readReg_keyboardPoll (s : State) (r : Reg) : readReg (keyboardPoll s) r = readReg s r := by
  simp [readReg]

theorem keyboardPoll_host (s : State) :
    (keyboardPoll s).host = if nextKey s.host then afterChar (afterKey s.host) else afterKey s.host := by
  unfold keyboardPoll; split <;> rfl

/-- What a poll leaves in each cell (R38). -/
theorem cell_keyboardPoll (s : State) (a : Word) :
    cell (keyboardPoll s) a =
      if nextKey s.host then
        if a = Config.kbdr then nextChar s.host
        else if a = Config.kbsr then cell s Config.kbsr ||| 0x8000#16
        else cell s a
      else if a = Config.kbsr then 0x0000#16 else cell s a := by
  unfold keyboardPoll
  split <;> simp [pollFound, pollEmpty, cell_setCell]

theorem wf_keyboardPoll (s : State) (h : Memory.wf s.mem) : Memory.wf (keyboardPoll s).mem := by
  unfold keyboardPoll
  split
  · exact wf_setCell _ _ _ (wf_setCell _ _ _ h)
  · exact wf_setCell _ _ _ h

theorem afterRead_other (s : State) {a : Word} (h : a ≠ Config.kbsr) : afterRead s a = s := by
  simp [afterRead, h]

@[simp] theorem afterRead_kbsr (s : State) : afterRead s Config.kbsr = keyboardPoll s := by simp [afterRead]

@[simp] theorem memRead_fst (s : State) (a : Word) : (memRead s a).1 = cell (afterRead s a) a := rfl
@[simp] theorem memRead_snd (s : State) (a : Word) : (memRead s a).2 = afterRead s a := rfl

@[simp] theorem afterRead_regs (s : State) (a : Word) : (afterRead s a).regs = s.regs := by
  unfold afterRead; split <;> simp
@[simp] theorem afterRead_pc (s : State) (a : Word) : (afterRead s a).pc = s.pc := by
  unfold afterRead; split <;> simp
@[simp] theorem afterRead_cond (s : State) (a : Word) : (afterRead s a).cond = s.cond := by
  unfold afterRead; split <;> simp
@[simp] theorem afterRead_runState (s : State) (a : Word) : (afterRead s a).runState = s.runState := by
  unfold afterRead; split <;> simp
@[simp] theorem afterRead_output (s : State) (a : Word) : (afterRead s a).host.output = s.host.output := by
  unfold afterRead; split <;> simp
@[simp] theorem afterRead_cancelIn (s : State) (a : Word) : (afterRead s a).host.cancelIn = s.host.cancelIn := by
  unfold afterRead; split <;> simp
@[simp] theorem readReg_afterRead (s : State) (a : Word) (r : Reg) : readReg (afterRead s a) r = readReg s r := by
  simp [readReg]

/-- Only KBSR and KBDR can change under a read (R44). -/
theorem cell_afterRead_other (s : State) (a : Word) {b : Word} (h1 : b ≠ Config.kbsr) (h2 : b ≠ Config.kbdr) :
    cell (afterRead s a) b = cell s b := by
  unfold afterRead
  split
  · simp [cell_keyboardPoll, h1, h2]
  · rfl

theorem wf_afterRead (s : State) (a : Word) (h : Memory.wf s.mem) : Memory.wf (afterRead s a).mem := by
  unfold afterRead
  split
  · exact wf_keyboardPoll s h
  · exact h

/-! ### Waiting, faults and traps -/

/-- A wait answers a cancelled state where the host will cancel, and a stuck machine where it never does (R79, R118). -/
theorem waitForCharacter_cases (s : State) :
    (s.host.cancelIn ≠ none ∧ waitForCharacter s = .next (cancelRun s)) ∨
    (s.host.cancelIn = none ∧ waitForCharacter s = .fault (.waitingForCharacter s)) := by
  unfold waitForCharacter
  split
  · next h => exact .inl ⟨by simp [h], rfl⟩
  · next h => exact .inr ⟨h, rfl⟩

/-- Everything a character read can do (R101, R104, R127). -/
theorem withChar_cases (s : State) (k : Word → State → State) :
    (hostWaits s.host = true ∧ s.host.cancelIn ≠ none ∧ withChar s k = .next (cancelRun s)) ∨
    (hostWaits s.host = true ∧ s.host.cancelIn = none ∧ withChar s k = .fault (.waitingForCharacter s)) ∨
    (hostWaits s.host = false ∧ withChar s k = .next (k (nextChar s.host) (setHost s (afterChar s.host)))) := by
  unfold withChar
  split
  · next h =>
    rcases waitForCharacter_cases s with ⟨hc, e⟩ | ⟨hc, e⟩
    · exact .inl ⟨h, hc, e⟩
    · exact .inr (.inl ⟨h, hc, e⟩)
  · next h => exact .inr (.inr ⟨by simpa using h, rfl⟩)

/-- Everything a string routine can do (R103, R105, R108). -/
theorem putString_cases (f : Word → List Byte) (s : State) :
    ((scanString s (readReg s 0#3)).2 = none ∧
      putString f s = .next (putBytes s ((scanString s (readReg s 0#3)).1.flatMap f))) ∨
    (∃ a, (scanString s (readReg s 0#3)).2 = some a ∧
      putString f s = raiseFault (.stringScanOutOfRange a)
        (putBytes s ((scanString s (readReg s 0#3)).1.flatMap f))) := by
  unfold putString
  split
  · next h => exact .inl ⟨h, rfl⟩
  · next a h => exact .inr ⟨a, h, rfl⟩

@[simp] theorem trapEntry_pc (s : State) : (trapEntry s).pc = s.pc := rfl
@[simp] theorem trapEntry_cond (s : State) : (trapEntry s).cond = s.cond := rfl
@[simp] theorem trapEntry_mem (s : State) : (trapEntry s).mem = s.mem := rfl
@[simp] theorem trapEntry_runState (s : State) : (trapEntry s).runState = s.runState := rfl
@[simp] theorem trapEntry_host (s : State) : (trapEntry s).host = s.host := rfl
@[simp] theorem cell_trapEntry (s : State) (a : Word) : cell (trapEntry s) a = cell s a := rfl

theorem readReg_trapEntry (s : State) (q : Reg) :
    readReg (trapEntry s) q = if q = 7#3 then s.pc else readReg s q :=
  readReg_writeReg s q 7#3 s.pc

/-- The vectors the dispatcher knows, and what it does with each (R100, R107). -/
theorem dispatchTrap_cases (v : BitVec 8) (s : State) :
    (v = 0x20#8 ∧ dispatchTrap v s = routineGetc s) ∨ (v = 0x21#8 ∧ dispatchTrap v s = routineOut s) ∨
    (v = 0x22#8 ∧ dispatchTrap v s = routinePuts s) ∨ (v = 0x23#8 ∧ dispatchTrap v s = routineIn s) ∨
    (v = 0x24#8 ∧ dispatchTrap v s = routinePutsp s) ∨ (v = 0x25#8 ∧ dispatchTrap v s = routineHalt s) ∨
    (v ≠ 0x20#8 ∧ v ≠ 0x21#8 ∧ v ≠ 0x22#8 ∧ v ≠ 0x23#8 ∧ v ≠ 0x24#8 ∧ v ≠ 0x25#8 ∧
      dispatchTrap v s = raiseFault (.undefinedTrapVector v) s) := by
  unfold dispatchTrap
  split
  · next h => exact .inl ⟨h, rfl⟩
  split
  · next h => exact .inr (.inl ⟨h, rfl⟩)
  split
  · next h => exact .inr (.inr (.inl ⟨h, rfl⟩))
  split
  · next h => exact .inr (.inr (.inr (.inl ⟨h, rfl⟩)))
  split
  · next h => exact .inr (.inr (.inr (.inr (.inl ⟨h, rfl⟩))))
  split
  · next h => exact .inr (.inr (.inr (.inr (.inr (.inl ⟨h, rfl⟩)))))
  · next h0 h1 h2 h3 h4 h5 => exact .inr (.inr (.inr (.inr (.inr (.inr ⟨h0, h1, h2, h3, h4, h5, rfl⟩)))))

/-! ### The step -/

@[simp] theorem passBoundary_regs (s : State) : (passBoundary s).regs = s.regs := rfl
@[simp] theorem passBoundary_pc (s : State) : (passBoundary s).pc = s.pc := rfl
@[simp] theorem passBoundary_cond (s : State) : (passBoundary s).cond = s.cond := rfl
@[simp] theorem passBoundary_mem (s : State) : (passBoundary s).mem = s.mem := rfl
@[simp] theorem passBoundary_runState (s : State) : (passBoundary s).runState = s.runState := rfl
@[simp] theorem passBoundary_output (s : State) : (passBoundary s).host.output = s.host.output := rfl
@[simp] theorem passBoundary_consumed (s : State) : (passBoundary s).host.consumed = s.host.consumed := rfl

/-- The countdown at a boundary and the keyboard poll touch different parts of the state. -/
theorem keyboardPoll_passBoundary (s : State) : keyboardPoll (passBoundary s) = passBoundary (keyboardPoll s) := by
  unfold keyboardPoll
  rw [show nextKey (passBoundary s).host = nextKey s.host from rfl]
  split <;> rfl

theorem afterRead_passBoundary (s : State) (a : Word) :
    afterRead (passBoundary s) a = passBoundary (afterRead s a) := by
  unfold afterRead
  split
  · exact keyboardPoll_passBoundary s
  · rfl

theorem passBoundary_uncancelled (s : State) (h : s.host.cancelIn = none) : passBoundary s = s := by
  obtain ⟨_, _, _, _, _, ⟨_, _, _, _, _, _, _⟩⟩ := s
  simp_all [passBoundary, setHost]

@[simp] theorem fetch_snd (s : State) : (fetch s).2 = setPc (afterRead s s.pc) (s.pc + 1#16) := rfl
@[simp] theorem fetch_fst (s : State) : (fetch s).1 = cell (afterRead s s.pc) s.pc := rfl

/-- Everything a step can do (R72, R73, R118). -/
theorem step_cases (s : State) :
    (s.runState ≠ .running ∧ step s = .fault (.noStep s)) ∨
    (s.runState = .running ∧ cancelsHere s.host = true ∧ step s = .next (cancelRun s)) ∨
    (s.runState = .running ∧ cancelsHere s.host = false ∧ step s = runInstruction (passBoundary s)) := by
  unfold step
  split
  · next h =>
    split
    · next hc => exact .inr (.inl ⟨h, hc, rfl⟩)
    · next hc => exact .inr (.inr ⟨h, by simpa using hc, rfl⟩)
  · next h => exact .inl ⟨h, rfl⟩

end Sys2Proof.Machine
end

