-- ==== Sys2Proof/Laws/PerInstr.lean ====
section
/-!
SUPPORT. Statements for every instruction, one lemma per constructor.
-/

/-- The top 4 bits of an instruction's word are its opcode's number, and read back as that opcode (R54, R55). -/
def Sys2Proof.Laws.EncodeOpcode.Statement (i : Sys2Proof.Instr) : Prop :=
  Sys2Proof.fieldOpcode (Sys2Proof.encode i) = Sys2Proof.opcodeBits i.opcode ∧
  Sys2Proof.opcodeOfBits (Sys2Proof.fieldOpcode (Sys2Proof.encode i)) = i.opcode

namespace Sys2Proof.Laws.EncodeOpcode

theorem general (i : Instr) : Statement i := by
  have h : fieldOpcode (encode i) = opcodeBits i.opcode := fieldOpcode_encode i
  exact ⟨h, by rw [h, opcodeOfBits_opcodeBits]⟩

theorem br (n z p : Bool) (off : BitVec 9) : Statement (.br n z p off) := general _
theorem addReg (dr sr1 sr2 : Reg) : Statement (.addReg dr sr1 sr2) := general _
theorem addImm (dr sr1 : Reg) (imm : BitVec 5) : Statement (.addImm dr sr1 imm) := general _
theorem ld (dr : Reg) (off : BitVec 9) : Statement (.ld dr off) := general _
theorem st (sr : Reg) (off : BitVec 9) : Statement (.st sr off) := general _
theorem jsr (off : BitVec 11) : Statement (.jsr off) := general _
theorem jsrr (base : Reg) : Statement (.jsrr base) := general _
theorem andReg (dr sr1 sr2 : Reg) : Statement (.andReg dr sr1 sr2) := general _
theorem andImm (dr sr1 : Reg) (imm : BitVec 5) : Statement (.andImm dr sr1 imm) := general _
theorem ldr (dr base : Reg) (off : BitVec 6) : Statement (.ldr dr base off) := general _
theorem str (sr base : Reg) (off : BitVec 6) : Statement (.str sr base off) := general _
theorem rti : Statement .rti := general _
theorem not (dr sr : Reg) : Statement (.not dr sr) := general _
theorem ldi (dr : Reg) (off : BitVec 9) : Statement (.ldi dr off) := general _
theorem sti (sr : Reg) (off : BitVec 9) : Statement (.sti sr off) := general _
theorem ret : Statement .ret := general _
theorem jmp (base : Reg) : Statement (.jmp base) := general _
theorem res : Statement .res := general _
theorem lea (dr : Reg) (off : BitVec 9) : Statement (.lea dr off) := general _
theorem trap (v : BitVec 8) : Statement (.trap v) := general _
theorem getc : Statement .getc := general _
theorem out : Statement .out := general _
theorem puts : Statement .puts := general _
theorem inp : Statement .inp := general _
theorem putsp : Statement .putsp := general _
theorem halt : Statement .halt := general _
theorem trapUndefined (v : BitVec 8) : Statement (.trapUndefined v) := general _

end Sys2Proof.Laws.EncodeOpcode
end

