-- ==== Sys2Proof/Tests/Slice0.lean ====
section
/-!
SUPPORT. Tests of single steps against spec/95_test_vectors.md, decoding of words written out from spec/30_encoding.md, and
for every statement with hypotheses the states and operands that meet them.
-/

namespace Sys2Proof.Tests

open Sys2Proof Sys2Proof.Machine

/-! ### Small states -/

/-- A host that answers these polls and supplies these characters, and then no more. -/
def host (keys : List Bool) (chars : List Word) : HostSide :=
  { HostSide.reset with keys := keys, chars := chars, silent := true }

/-- A running machine with this PC, flag, registers, memory cells and host. -/
def state (pc : Word) (c : Cond) (regs : List (Reg × Word)) (cells : List (Word × Word)) (h : HostSide) : State :=
  regs.foldl (fun t r => writeReg t r.1 r.2)
    (cells.foldl (fun t m => setCell t m.1 m.2)
      (setCond (setPc (State.initial (Vector.replicate 8 0x0000#16) h) pc) c))

/-- The state an outcome carries. -/
def after : Result → State
  | .next t => t
  | .fault (.fatal _ t) => t
  | .fault (.waitingForCharacter t) => t
  | .fault (.noStep t) => t
  | .refused _ => State.reset

/-- Whether an outcome is a next state. -/
def goesOn : Result → Bool
  | .next _ => true
  | .fault _ => false
  | .refused _ => false

/-- One step of the word `w` at 0x3000 with COND = Z. -/
def at3000 (w : Word) (regs : List (Reg × Word)) (cells : List (Word × Word)) (h : HostSide) : Result :=
  step (state 0x3000#16 .z regs ((0x3000#16, w) :: cells) h)

/-- Register `r`, the flag and PC of an outcome. -/
def rcp (x : Result) (r : Reg) : Word × Cond × Word := (readReg (after x) r, (after x).cond, (after x).pc)

/-! ### Well-formedness: each check refuses a term and passes its neighbour -/

theorem test_wellFormed_jmp : (Instr.jmp 7#3).wellFormed = false ∧ (Instr.jmp 6#3).wellFormed = true := by decide

theorem test_wellFormed_trap : (Instr.trap 0x25#8).wellFormed = false ∧ Instr.halt.wellFormed = true := by decide

theorem test_wellFormed_trapUndefined :
    (Instr.trapUndefined 0x20#8).wellFormed = false ∧ (Instr.trapUndefined 0x25#8).wellFormed = false ∧
    (Instr.trapUndefined 0x1F#8).wellFormed = true ∧ (Instr.trapUndefined 0x26#8).wellFormed = true := by decide

/-! ### Decoding: words written out from the formats of R56 -/

theorem test_decode_operate :
    decode 0b0001_000_001_0_00_010#16 = .addReg 0#3 1#3 2#3 ∧
    decode 0b0001_000_001_1_11101#16 = .addImm 0#3 1#3 0b11101#5 ∧
    decode 0b0101_011_100_0_00_101#16 = .andReg 3#3 4#3 5#3 ∧
    decode 0b0101_010_010_1_00000#16 = .andImm 2#3 2#3 0#5 ∧
    decode 0b1001_100_101_111111#16 = .not 4#3 5#3 := by decide

theorem test_decode_control :
    decode 0b0000_0_1_0_111111101#16 = .br false true false 0x1FD#9 ∧
    decode 0b1100_000_011_000000#16 = .jmp 3#3 ∧
    decode 0b1100_000_111_000000#16 = .ret ∧
    decode 0b0100_1_00000010000#16 = .jsr 0x010#11 ∧
    decode 0b0100_0_00_010_000000#16 = .jsrr 2#3 := by decide

theorem test_decode_loadStore :
    decode 0b0010_001_000000010#16 = .ld 1#3 0x002#9 ∧
    decode 0b1010_000_000000001#16 = .ldi 0#3 0x001#9 ∧
    decode 0b0110_011_100_111111#16 = .ldr 3#3 4#3 0x3F#6 ∧
    decode 0b0011_000_111111110#16 = .st 0#3 0x1FE#9 ∧
    decode 0b1011_101_000000000#16 = .sti 5#3 0x000#9 ∧
    decode 0b0111_110_001_000101#16 = .str 6#3 1#3 0x05#6 ∧
    decode 0b1110_000_111111111#16 = .lea 0#3 0x1FF#9 := by decide

theorem test_decode_trap :
    decode 0b1111_0000_00100000#16 = .getc ∧ decode 0b1111_0000_00100001#16 = .out ∧
    decode 0b1111_0000_00100010#16 = .puts ∧ decode 0b1111_0000_00100011#16 = .inp ∧
    decode 0b1111_0000_00100100#16 = .putsp ∧ decode 0b1111_0000_00100101#16 = .halt ∧
    decode 0b1111_0000_00100110#16 = .trapUndefined 0x26#8 ∧
    decode 0b1111_0000_00011111#16 = .trapUndefined 0x1F#8 := by decide

theorem test_decode_reserved : decode 0b1000_000000000000#16 = .rti ∧ decode 0b1101_000000000000#16 = .res := by decide

/-- The ignored bits of R65 set to other values than the bracketed ones. -/
theorem test_decode_ignored :
    decode 0x105A#16 = .addReg 0#3 1#3 2#3 ∧ decode 0x505A#16 = .andReg 0#3 1#3 2#3 ∧
    decode 0x9040#16 = .not 0#3 1#3 ∧ decode 0xCEFF#16 = .jmp 3#3 ∧ decode 0xCFFF#16 = .ret ∧
    decode 0x46BF#16 = .jsrr 2#3 ∧ decode 0xFF25#16 = .halt ∧ decode 0xFF26#16 = .trapUndefined 0x26#8 ∧
    decode 0x8FFF#16 = .rti ∧ decode 0xD123#16 = .res := by decide

/-- The words of the assembly lines of 95_test_vectors.md. -/
theorem test_encode :
    encode (.addReg 0#3 1#3 2#3) = 0x1042#16 ∧ encode (.addImm 0#3 1#3 0x1D#5) = 0x107D#16 ∧
    encode (.andReg 0#3 1#3 2#3) = 0x5042#16 ∧ encode (.andImm 0#3 0#3 0#5) = 0x5020#16 ∧
    encode (.not 0#3 1#3) = 0x907F#16 ∧ encode (.br true true true 0x1FF#9) = 0x0FFF#16 ∧
    encode (.jmp 0#3) = 0xC000#16 ∧ encode .ret = 0xC1C0#16 ∧ encode (.jsr 0x010#11) = 0x4810#16 ∧
    encode (.jsrr 2#3) = 0x4080#16 ∧ encode (.ld 0#3 0x1FE#9) = 0x21FE#16 ∧ encode (.ldi 0#3 1#9) = 0xA001#16 ∧
    encode (.ldr 3#3 4#3 0x3F#6) = 0x673F#16 ∧ encode (.st 0#3 0x1FF#9) = 0x31FF#16 ∧
    encode (.sti 1#3 0#9) = 0xB200#16 ∧ encode (.str 0#3 1#3 0x1F#6) = 0x705F#16 ∧
    encode (.lea 0#3 0x1FF#9) = 0xE1FF#16 ∧ encode .getc = 0xF020#16 ∧ encode .out = 0xF021#16 ∧
    encode .puts = 0xF022#16 ∧ encode .inp = 0xF023#16 ∧ encode .putsp = 0xF024#16 ∧ encode .halt = 0xF025#16 ∧
    encode (.trapUndefined 0x30#8) = 0xF030#16 ∧ encode (.trap 0x22#8) = 0xF022#16 ∧
    encode .rti = 0x8000#16 ∧ encode .res = 0xD000#16 := by decide

theorem test_decodeBytes :
    (match decodeBytes [0xF0#8, 0x25#8, 0x30#8] with
      | .ok (i, rest) => decide (i = .halt ∧ rest = [0x30#8])
      | .error _ => false) = true ∧
    (match decodeBytes [0xF0#8] with
      | .ok _ => false
      | .error e => decide (e = .truncated)) = true := by decide

theorem test_decodeTableWord :
    decodeTableWord 16 0xC1C0 = some .ret ∧ decodeTableWord 16 0x1C1C0 = none := by decide

/-! ### Operands and flags (L1.1, L1.2) -/

theorem test_sext16 :
    sext16 0x0F#5 = 0x000F#16 ∧ sext16 0x10#5 = 0xFFF0#16 ∧ sext16 0x20#6 = 0xFFE0#16 ∧ sext16 0x1F#6 = 0x001F#16 ∧
    sext16 0x100#9 = 0xFF00#16 ∧ sext16 0x0FF#9 = 0x00FF#16 ∧ sext16 0x400#11 = 0xFC00#16 ∧
    sext16 0x3FF#11 = 0x03FF#16 := by decide

theorem test_condOf :
    condOf 0x0000#16 = .z ∧ condOf 0x0001#16 = .p ∧ condOf 0x7FFF#16 = .p ∧ condOf 0x8000#16 = .n ∧
    condOf 0xFFFF#16 = .n := by decide

/-! ### Operate instructions (O2, O4, O7, O10, O12, O13, O14, O18, O20) -/

theorem test_addReg_wraps : rcp (at3000 0x1042#16 [(1#3, 0xFFFF#16), (2#3, 0x0001#16)] [] HostSide.reset) 0#3 =
    (0x0000#16, .z, 0x3001#16) := by decide

theorem test_addReg_same_register : rcp (at3000 0x1241#16 [(1#3, 0x4000#16)] [] HostSide.reset) 1#3 =
    (0x8000#16, .n, 0x3001#16) := by decide

theorem test_addImm_minus_three : rcp (at3000 0x107D#16 [(1#3, 0x0005#16)] [] HostSide.reset) 0#3 =
    (0x0002#16, .p, 0x3001#16) := by decide

theorem test_addImm_smallest : rcp (at3000 0x1070#16 [(1#3, 0x0005#16)] [] HostSide.reset) 0#3 =
    (0xFFF5#16, .n, 0x3001#16) := by decide

theorem test_andReg_copy : rcp (at3000 0x5041#16 [(1#3, 0x7ABC#16)] [] HostSide.reset) 0#3 =
    (0x7ABC#16, .p, 0x3001#16) := by decide

theorem test_andImm_extends : rcp (at3000 0x5070#16 [(1#3, 0xABCD#16)] [] HostSide.reset) 0#3 =
    (0xABC0#16, .n, 0x3001#16) := by decide

theorem test_andImm_positive : rcp (at3000 0x506F#16 [(1#3, 0xABCD#16)] [] HostSide.reset) 0#3 =
    (0x000D#16, .p, 0x3001#16) := by decide

theorem test_not_sign : rcp (at3000 0x907F#16 [(1#3, 0x8000#16)] [] HostSide.reset) 0#3 =
    (0x7FFF#16, .p, 0x3001#16) := by decide

theorem test_not_ignored_bits : rcp (at3000 0x9040#16 [(1#3, 0x1234#16)] [] HostSide.reset) 0#3 =
    (0xEDCB#16, .n, 0x3001#16) := by decide

/-! ### Control transfer (the table of 2.2, B3, J1, J3, J5, J7, J9, J11) -/

theorem test_br_masks :
    [(0x0005#16, Cond.z), (0x0205#16, .z), (0x0205#16, .p), (0x0405#16, .z), (0x0405#16, .n), (0x0805#16, .n),
      (0x0805#16, .z), (0x0A05#16, .z), (0x0C05#16, .p), (0x0E05#16, .p)].map
        (fun x => (after (step (state 0x3000#16 x.2 [] [(0x3000#16, x.1)] HostSide.reset))).pc) =
    [0x3001#16, 0x3001#16, 0x3006#16, 0x3006#16, 0x3001#16, 0x3006#16, 0x3001#16, 0x3001#16, 0x3001#16,
      0x3006#16] := by decide

theorem test_br_wraps_backward :
    (after (step (state 0x0000#16 .z [] [(0x0000#16, 0x0FFE#16)] HostSide.reset))).pc = 0xFFFF#16 := by decide

theorem test_jmp : rcp (at3000 0xC000#16 [(0#3, 0xFFFF#16), (7#3, 0x0042#16)] [] HostSide.reset) 7#3 =
    (0x0042#16, .z, 0xFFFF#16) := by decide

theorem test_ret : rcp (at3000 0xC1C0#16 [(7#3, 0x1234#16)] [] HostSide.reset) 7#3 =
    (0x1234#16, .z, 0x1234#16) := by decide

theorem test_jsr_backward : rcp (at3000 0x4FFF#16 [] [] HostSide.reset) 7#3 = (0x3001#16, .z, 0x3000#16) := by decide

theorem test_jsr_wraps :
    rcp (step (state 0xFFFF#16 .z [] [(0xFFFF#16, 0x4BFF#16)] HostSide.reset)) 7#3 =
    (0x0000#16, .z, 0x03FF#16) := by decide

theorem test_jsrr : rcp (at3000 0x4080#16 [(2#3, 0x5000#16)] [] HostSide.reset) 7#3 =
    (0x3001#16, .z, 0x5000#16) := by decide

theorem test_jsrr_r7_falls_through : rcp (at3000 0x41C0#16 [(7#3, 0x6000#16)] [] HostSide.reset) 7#3 =
    (0x3001#16, .z, 0x3001#16) := by decide

/-! ### Loads, stores and LEA (L3, L4, L6, L8, L9, L10, L13, L15; S2, S4, S5, S6, S7, S8) -/

theorem test_ld_kbsr_no_key :
    let t := after (step (state 0xFDFF#16 .p [] [(0xFDFF#16, 0x2000#16), (0xFE00#16, 0x1234#16)] (host [false] [])))
    readReg t 0#3 = 0x0000#16 ∧ t.cond = .z ∧ cell t 0xFE00#16 = 0x0000#16 := by decide

theorem test_ld_kbsr_key :
    let t := after (step (state 0xFDFF#16 .p [] [(0xFDFF#16, 0x2000#16), (0xFE00#16, 0x1234#16)]
      (host [true] [0x0061#16])))
    readReg t 0#3 = 0x9234#16 ∧ t.cond = .n ∧ cell t 0xFE00#16 = 0x9234#16 ∧ cell t 0xFE02#16 = 0x0061#16 ∧
      t.host.consumed = [0x0061#16] := by decide

theorem test_ldi_to_zero :
    rcp (step (state 0x3000#16 .p [(0#3, 0x1111#16)] [(0x3000#16, 0xA001#16), (0x3002#16, 0x4000#16)]
      HostSide.reset)) 0#3 = (0x0000#16, .z, 0x3001#16) := by decide

theorem test_ldi_second_read_polls :
    let t := after (at3000 0xA000#16 [] [(0x3001#16, 0xFE00#16)] (host [true] [0x000A#16]))
    readReg t 0#3 = 0x8000#16 ∧ cell t 0xFE02#16 = 0x000A#16 := by decide

theorem test_ldr_base_is_destination : rcp (at3000 0x6240#16 [(1#3, 0x4000#16)] [(0x4000#16, 0x8765#16)]
    HostSide.reset) 1#3 = (0x8765#16, .n, 0x3001#16) := by decide

theorem test_ldr_wraps : rcp (at3000 0x6041#16 [(1#3, 0xFFFF#16)] [(0x0000#16, 0x5A5A#16)] HostSide.reset) 0#3 =
    (0x5A5A#16, .p, 0x3001#16) := by decide

theorem test_lea_to_zero :
    rcp (step (state 0x0000#16 .p [] [(0x0000#16, 0xE1FF#16)] HostSide.reset)) 0#3 =
    (0x0000#16, .z, 0x0001#16) := by decide

theorem test_lea_does_not_poll :
    let t := after (step (state 0xFDFF#16 .z [] [(0xFDFF#16, 0xE000#16)] (host [true] [0x0061#16])))
    readReg t 0#3 = 0xFE00#16 ∧ t.cond = .n ∧ cell t 0xFE00#16 = 0x0000#16 ∧ t.host.chars = [0x0061#16] := by decide

theorem test_st_kbsr_is_plain :
    let t := after (step (state 0xFDFF#16 .n [(0#3, 0x1234#16)] [(0xFDFF#16, 0x3000#16)] (host [true] [0x0061#16])))
    cell t 0xFE00#16 = 0x1234#16 ∧ t.cond = .n ∧ t.host.keys = [true] := by decide

theorem test_st_itself :
    cell (after (at3000 0x31FF#16 [(0#3, 0x1111#16)] [] HostSide.reset)) 0x3000#16 = 0x1111#16 := by decide

theorem test_sti_over_pointer :
    cell (after (at3000 0xB200#16 [(1#3, 0x7777#16)] [(0x3001#16, 0x3001#16)] HostSide.reset)) 0x3001#16 =
    0x7777#16 := by decide

theorem test_sti_kbsr_is_plain :
    let t := after (at3000 0xB000#16 [(0#3, 0x0041#16)] [(0x3001#16, 0xFE00#16)] (host [true] [0x0062#16]))
    cell t 0xFE00#16 = 0x0041#16 ∧ cell t 0xFE02#16 = 0x0000#16 ∧ t.host.chars = [0x0062#16] := by decide

theorem test_str_base_is_source :
    cell (after (at3000 0x7240#16 [(1#3, 0x4000#16)] [] HostSide.reset)) 0x4000#16 = 0x4000#16 := by decide

theorem test_str_wraps :
    cell (after (at3000 0x705F#16 [(0#3, 0x0009#16), (1#3, 0xFFF0#16)] [] HostSide.reset)) 0x000F#16 =
    0x0009#16 := by decide

/-! ### TRAP (T3, T4, T6, T8, T9, T10, T11, T13, T14, T15, T17, T19, T22) -/

theorem test_getc : rcp (at3000 0xF020#16 [] [] (host [] [0xFFFF#16])) 0#3 = (0xFFFF#16, .n, 0x3001#16) ∧
    readReg (after (at3000 0xF020#16 [] [] (host [] [0xFFFF#16]))) 7#3 = 0x3001#16 := by decide

theorem test_getc_waits :
    goesOn (at3000 0xF020#16 [] [] (host [] [])) = false ∧
    readReg (after (at3000 0xF020#16 [] [] (host [] []))) 7#3 = 0x3001#16 ∧
    (after (at3000 0xF020#16 [] [] { host [] [] with cancelIn := some 5 })).runState = .cancelled := by decide

theorem test_out : (after (at3000 0xF021#16 [(0#3, 0x1241#16)] [] HostSide.reset)).host.output = [0x41#8] := by decide

theorem test_puts :
    (after (at3000 0xF022#16 [(0#3, 0x4000#16)] [(0x4000#16, 0x0100#16), (0x4001#16, 0x0041#16)]
      HostSide.reset)).host.output = [0x00#8, 0x41#8] := by decide

theorem test_puts_past_top :
    let t := after (at3000 0xF022#16 [(0#3, 0xFFFF#16)] [(0xFFFF#16, 0x0041#16)] HostSide.reset)
    t.runState = .faulted (.stringScanOutOfRange 0x10000) ∧ t.host.output = [0x41#8] := by decide

theorem test_in :
    rcp (at3000 0xF023#16 [] [] (host [] [0x0178#16])) 0#3 = (0x0178#16, .p, 0x3001#16) := by decide

theorem test_in_output :
    (after (at3000 0xF023#16 [] [] (host [] [0x0178#16]))).host.output = [] ++ Config.inPrompt ++ [0x78#8] := by rfl

theorem test_putsp :
    (after (at3000 0xF024#16 [(0#3, 0x4000#16)]
      [(0x4000#16, 0x4548#16), (0x4001#16, 0x4100#16), (0x4002#16, 0x004C#16)] HostSide.reset)).host.output =
    [0x48#8, 0x45#8, 0x00#8, 0x41#8, 0x4C#8] := by decide

theorem test_putsp_kbsr :
    let t := after (at3000 0xF024#16 [(0#3, 0xFDFF#16)] [(0xFDFF#16, 0x0041#16)] (host [true] [0x0062#16]))
    t.runState = .faulted (.stringScanOutOfRange 0xFE00) ∧ t.host.output = [0x41#8] ∧ t.host.keys = [true] := by decide

theorem test_halt :
    (after (at3000 0xF025#16 [] [] HostSide.reset)).runState = .halted ∧
    rcp (at3000 0xFF25#16 [] [] HostSide.reset) 7#3 = (0x3001#16, .z, 0x3001#16) := by decide

theorem test_trapUndefined :
    (after (at3000 0xF026#16 [] [] HostSide.reset)).runState = .faulted (.undefinedTrapVector 0x26#8) ∧
    rcp (at3000 0xF01F#16 [] [] HostSide.reset) 7#3 = (0x3001#16, .z, 0x3001#16) := by decide

/-! ### Reserved opcodes (X2, X4) and a fetch from KBSR (F3, F4) -/

theorem test_rti : (after (at3000 0x8FFF#16 [] [] HostSide.reset)).runState = .faulted (.invalidOpcode 0x8#4) := by decide

theorem test_res :
    let t := after (step (state 0x4000#16 .z [] [(0x4000#16, 0xD123#16)] HostSide.reset))
    t.runState = .faulted (.invalidOpcode 0xD#4) ∧ t.pc = 0x4001#16 := by decide

theorem test_fetch_kbsr_faults :
    let t := after (step (state 0xFE00#16 .z [] [] (host [true] [0x0041#16])))
    t.runState = .faulted (.invalidOpcode 0x8#4) ∧ t.pc = 0xFE01#16 ∧ cell t 0xFE02#16 = 0x0041#16 := by decide

theorem test_fetch_kbsr_halts :
    let t := after (step (state 0xFE00#16 .z [] [(0xFE00#16, 0x7025#16)] (host [true] [0x0041#16])))
    t.runState = .halted ∧ readReg t 7#3 = 0xFE01#16 := by decide

/-! ### Images (I3, I5 to I8) and the host's entry to the machine -/

/-- What a launch builds, or State.reset where it builds nothing. -/
def launched (images : List (List Byte)) : State :=
  match launch (Vector.replicate 8 0x0000#16) HostSide.reset images with
  | .ok s => s
  | .error _ => State.reset

/-- Why a launch builds nothing. -/
def launchError (images : List (List Byte)) : Option LaunchError :=
  match launch (Vector.replicate 8 0x0000#16) HostSide.reset images with
  | .ok _ => none
  | .error e => some e

theorem test_launch_later_wins :
    let s := launched [[0x30#8, 0x00#8, 0x11#8, 0x11#8, 0x22#8, 0x22#8], [0x30#8, 0x01#8, 0x33#8, 0x33#8]]
    cell s 0x3000#16 = 0x1111#16 ∧ cell s 0x3001#16 = 0x3333#16 ∧ s.pc = 0x3000#16 := by decide

theorem test_launch_refusals :
    launchError [] = some .noImage ∧ launchError [[0x30#8]] = some .tooShort ∧
    launchError [[0x30#8, 0x00#8, 0xF0#8]] = some .oddLength ∧
    launchError [[0xFF#8, 0xFF#8, 0x12#8, 0x34#8, 0x56#8, 0x78#8]] = some .pastMemoryEnd ∧
    launchError [[0xFF#8, 0xFF#8, 0x12#8, 0x34#8]] = none := by decide

theorem test_withFetchWord :
    (after (step (State.reset.withFetchWord 16 0xF025))).runState = .halted ∧
    readReg (after (step (State.reset.withFetchWord 16 0x102F))) 0#3 = 0x000F#16 := by decide

/-! ### Witnesses: states and operands that meet the hypotheses of each statement, clause by clause -/

/-- A waiting host, a full host, a string at 0x4000 and strings that a scan cannot end. -/
def waiting : State := state 0x3001#16 .n [(0#3, 0x4000#16)] [] (host [] [])
def answered : State := state 0x3001#16 .n [(0#3, 0x4000#16)] [] (host [true, false] [0x0041#16, 0x0042#16])
def string : State :=
  state 0x3001#16 .n [(0#3, 0x4000#16)] [(0x4000#16, 0x0048#16), (0x4001#16, 0x4900#16)] HostSide.reset
def stringAtKbsr : State := state 0x3001#16 .n [(0#3, 0xFDFF#16)] [(0xFDFF#16, 0x0041#16)] HostSide.reset
def stringAtTop : State := state 0x3001#16 .n [(0#3, 0xFFFF#16)] [(0xFFFF#16, 0x0041#16)] HostSide.reset
def stringInKbsr : State := state 0x3001#16 .n [(0#3, 0xFE00#16)] [] HostSide.reset

/-- The words under the masks of the statements: the smallest and the largest of each, ignored bits included. -/
theorem test_witness_masks_operate_control_reserved :
    [0x1000#16, 0x1FDF#16, 0x1020#16, 0x1FFF#16, 0x5000#16, 0x5FDF#16, 0x5020#16,
        0x5FFF#16].map (fun w => w &&& 0xF020#16) =
      [0x1000#16, 0x1000#16, 0x1020#16, 0x1020#16, 0x5000#16, 0x5000#16, 0x5020#16, 0x5020#16] ∧
    [0x9000#16, 0x9FFF#16, 0x0000#16, 0x0FFF#16, 0xC000#16, 0xCFFF#16, 0x8000#16, 0x8FFF#16, 0xD000#16,
        0xDFFF#16].map (fun w => w &&& 0xF000#16) =
      [0x9000#16, 0x9000#16, 0x0000#16, 0x0000#16, 0xC000#16, 0xC000#16, 0x8000#16, 0x8000#16, 0xD000#16, 0xD000#16] ∧
    [0xC1C0#16, 0xCFFF#16].map (fun w => w &&& 0xF1C0#16) =
      [0xC1C0#16, 0xC1C0#16] ∧
    [0x4800#16, 0x4FFF#16, 0x4000#16, 0x47FF#16].map (fun w => w &&& 0xF800#16) =
      [0x4800#16, 0x4800#16, 0x4000#16, 0x4000#16] := by decide

theorem test_witness_masks_memory_trap :
    [0x2000#16, 0x2FFF#16, 0xA000#16, 0xAFFF#16, 0x6000#16, 0x6FFF#16, 0x3000#16,
        0x3FFF#16].map (fun w => w &&& 0xF000#16) =
      [0x2000#16, 0x2000#16, 0xA000#16, 0xA000#16, 0x6000#16, 0x6000#16, 0x3000#16, 0x3000#16] ∧
    [0xB000#16, 0xBFFF#16, 0x7000#16, 0x7FFF#16, 0xE000#16, 0xEFFF#16, 0xF000#16,
        0xFFFF#16].map (fun w => w &&& 0xF000#16) =
      [0xB000#16, 0xB000#16, 0x7000#16, 0x7000#16, 0xE000#16, 0xE000#16, 0xF000#16, 0xF000#16] ∧
    [0xF020#16, 0xFF20#16, 0xF021#16, 0xFF21#16, 0xF022#16, 0xFF22#16].map (fun w => w &&& 0xF0FF#16) =
      [0xF020#16, 0xF020#16, 0xF021#16, 0xF021#16, 0xF022#16, 0xF022#16] ∧
    [0xF023#16, 0xFF23#16, 0xF024#16, 0xFF24#16, 0xF025#16, 0xFF25#16].map (fun w => w &&& 0xF0FF#16) =
      [0xF023#16, 0xF023#16, 0xF024#16, 0xF024#16, 0xF025#16, 0xF025#16] := by decide

theorem test_witness_DecodeEncodeAgree :
    (Instr.jmp 6#3).wellFormed = true ∧ (Instr.trapUndefined 0x1F#8).wellFormed = true ∧
    (Instr.trapUndefined 0x26#8).wellFormed = true ∧ (Instr.br true false true 0x100#9).wellFormed = true := by decide

theorem test_witness_IgnoredBitsHaveNoEffect :
    0x1042#16 &&& ~~~(ignoredBits (decode 0x1042#16)) = 0x105A#16 &&& ~~~(ignoredBits (decode 0x1042#16)) ∧
    0xC1C0#16 &&& ~~~(ignoredBits (decode 0xC1C0#16)) = 0xCFFF#16 &&& ~~~(ignoredBits (decode 0xC1C0#16)) := by decide

theorem test_witness_OpcodeAssignment :
    [0x0000#16, 0x1000#16, 0x2000#16, 0x3000#16, 0x4800#16, 0x5000#16, 0x6000#16, 0x7000#16, 0x8000#16, 0x9000#16,
      0xA000#16, 0xB000#16, 0xC1C0#16, 0xD000#16, 0xE000#16, 0xF000#16].map (fun w => w.extractLsb' 12 4) =
    [0x0#4, 0x1#4, 0x2#4, 0x3#4, 0x4#4, 0x5#4, 0x6#4, 0x7#4, 0x8#4, 0x9#4, 0xA#4, 0xB#4, 0xC#4, 0xD#4, 0xE#4, 0xF#4] ∧
    (0x4800#16).getLsbD 11 = true ∧ (0x4000#16).getLsbD 11 = false ∧
    (0xC1C0#16).extractLsb' 6 3 = 7#3 := by decide

/-- Pointers to plain memory and to KBSR, and a pointer in KBSR itself. -/
theorem test_witness_LoadIndirect_StoreIndirect :
    (∃ ea s1 v s2, memRead (state 0x3001#16 .z [] [(0x3002#16, 0x4000#16)] HostSide.reset) (0x3001#16 + signedWord 1#9)
      = (ea, s1) ∧ memRead s1 ea = (v, s2) ∧ ea = 0x4000#16) ∧
    (∃ ea s1 v s2, memRead (state 0x3001#16 .z [] [(0x3001#16, 0xFE00#16)] (host [true] [0x0041#16]))
      (0x3001#16 + signedWord 0#9) = (ea, s1) ∧ memRead s1 ea = (v, s2) ∧ ea = 0xFE00#16 ∧ v = 0x8000#16) ∧
    (∃ ea s1 v s2, memRead (state 0xFE00#16 .z [] [] (host [true] [0x0041#16])) (0xFE00#16 + signedWord 0#9)
      = (ea, s1) ∧ memRead s1 ea = (v, s2) ∧ ea = 0x8000#16) :=
  ⟨⟨_, _, _, _, rfl, rfl, by decide⟩, ⟨_, _, _, _, rfl, rfl, by decide, by decide⟩,
    ⟨_, _, _, _, rfl, rfl, by decide⟩⟩

/-- The vectors of TrapDispatchByVector and UndefinedVectorFaults at the ends of their ranges. -/
theorem test_witness_vectors :
    0x1F#8 < 0x20#8 ∧ 0x00#8 < 0x20#8 ∧ 0x25#8 < 0x26#8 ∧ 0x25#8 < 0xFF#8 ∧ 0x20#8 ≤ 0x20#8 ∧ 0x25#8 ≤ 0x25#8 := by
  decide

/-- The strings of PutsWritesString and PutspWritesPackedString. -/
theorem test_witness_StringAt :
    StringAt string (readReg string 0#3) [0x0048#16, 0x4900#16] ∧ StringAt waiting (readReg waiting 0#3) [] := by
  unfold StringAt CellsAt
  decide

/-- The strings of StringScanFaults. -/
theorem test_witness_BadStringAt :
    BadStringAt stringAtKbsr (readReg stringAtKbsr 0#3) [0x0041#16] 0xFE00 ∧
    BadStringAt stringAtTop (readReg stringAtTop 0#3) [0x0041#16] 0x10000 ∧
    BadStringAt stringInKbsr (readReg stringInKbsr 0#3) [] 0xFE00 := by
  unfold BadStringAt CellsAt
  decide

/-- The hosts of GetcReadsCharacter, InPromptsReadsEchoes, WaitsForCharacter and HostCancels. -/
theorem test_witness_hosts :
    hostWaits answered.host = false ∧ hostWaits State.reset.host = false ∧
    hostWaits waiting.host = true ∧ waiting.host.cancelIn = none ∧
    hostWaits { waiting.host with cancelIn := some 0 } = true ∧
    hostWaits { waiting.host with cancelIn := some 7 } = true := by decide

/-- TrapCompletes: the smallest and the largest vector, and one vector of each side condition. -/
theorem test_witness_TrapCompletes :
    (0x20#8 ≤ 0x20#8 ∧ 0x20#8 ≤ 0x25#8 ∧ hostWaits answered.host = false) ∧
    (0x20#8 ≤ 0x22#8 ∧ 0x22#8 ≤ 0x25#8 ∧ ∃ ws, StringAt string (readReg string 0#3) ws) ∧
    (0x20#8 ≤ 0x25#8 ∧ 0x25#8 ≤ 0x25#8 ∧ ¬(0x25#8 = 0x20#8 ∨ 0x25#8 = 0x23#8) ∧
      ¬(0x25#8 = 0x22#8 ∨ 0x25#8 = 0x24#8)) :=
  ⟨by decide, ⟨by decide, by decide, _, test_witness_StringAt.1⟩, by decide⟩

/-- OnlyListedFaults: a fault of each kind. -/
theorem test_witness_OnlyListedFaults :
    (∃ f, exec .rti State.reset = .fault (.fatal (.invalidOpcode 0x8#4) f)) ∧
    (∃ f, exec .res State.reset = .fault (.fatal (.invalidOpcode 0xD#4) f)) ∧
    (∃ f, exec (.trap 0x26#8) State.reset = .fault (.fatal (.undefinedTrapVector 0x26#8) f)) ∧
    (∃ f, exec (.trapUndefined 0x1F#8) State.reset = .fault (.fatal (.undefinedTrapVector 0x1F#8) f)) ∧
    (∃ f, exec .puts stringAtKbsr = .fault (.fatal (.stringScanOutOfRange 0xFE00) f)) ∧
    (∃ f, exec (.trap 0x24#8) stringAtTop = .fault (.fatal (.stringScanOutOfRange 0x10000) f)) :=
  ⟨⟨_, rfl⟩, ⟨_, rfl⟩, ⟨_, rfl⟩, ⟨_, rfl⟩, ⟨_, rfl⟩, ⟨_, rfl⟩⟩

theorem test_witness_MemoryAccess_StoredCodeIsFetched :
    0xFDFF#16 ≠ 0xFE00#16 ∧ 0xFE01#16 ≠ 0xFE00#16 ∧ 0xFE02#16 ≠ 0xFE00#16 := by decide

theorem test_witness_KeyboardPolls_HostAnswersInOrder :
    nextKey answered.host = true ∧ nextKey (host [false] []) = false ∧
    answered.host.keys = true :: [false] ∧ answered.host.chars = 0x0041#16 :: [0x0042#16] ∧
    goesOn (exec .getc answered) = true ∧ goesOn (exec .inp answered) = true := by decide

/-- The four clauses of StepRunsDecodedInstruction and the first of HostCancels. -/
theorem test_witness_StepRunsDecodedInstruction :
    State.reset.runState = .running ∧ State.reset.host.cancelIn = none ∧ State.reset.pc ≠ 0xFE00#16 ∧
    (state 0xFE00#16 .z [] [] HostSide.reset).pc = 0xFE00#16 ∧
    (state 0xFE00#16 .z [] [] HostSide.reset).runState = .running ∧
    (state 0xFE00#16 .z [] [] HostSide.reset).host.cancelIn = none ∧
    (state 0x3000#16 .z [] [] { HostSide.reset with cancelIn := some 0 }).host.cancelIn = some 0 ∧
    (state 0x3000#16 .z [] [] { HostSide.reset with cancelIn := some 1 }).host.cancelIn = some (0 + 1) ∧
    (state 0xFE00#16 .z [] [] { HostSide.reset with cancelIn := some 1 }).host.cancelIn = some (0 + 1) := by decide

theorem test_witness_TerminalStatesHaveNoStep :
    (setRunState State.reset .halted).runState.terminal = true ∧
    (setRunState State.reset .cancelled).runState.terminal = true ∧
    (setRunState State.reset (.faulted (.invalidOpcode 0x8#4))).runState.terminal = true := by decide

/-- EveryScanEnds: a state of each outcome, under each spelling. -/
theorem test_witness_EveryScanEnds :
    goesOn (exec .puts string) = true ∧ goesOn (exec (.trap 0x24#8) string) = true ∧
    (after (exec .putsp stringAtTop)).runState = .faulted (.stringScanOutOfRange 0x10000) ∧
    (after (exec (.trap 0x22#8) stringInKbsr)).runState = .faulted (.stringScanOutOfRange 0xFE00) := by decide

/-- StepOutcomes: a running state that goes on, one that halts, one that faults, one that waits, and one that is cancelled at
a boundary and in a wait. -/
theorem test_witness_StepOutcomes :
    (after (at3000 0x0000#16 [] [] HostSide.reset)).runState = .running ∧
    (after (at3000 0xF025#16 [] [] HostSide.reset)).runState = .halted ∧
    goesOn (at3000 0x8000#16 [] [] HostSide.reset) = false ∧
    goesOn (at3000 0xF020#16 [] [] (host [] [])) = false ∧
    (after (at3000 0x0000#16 [] [] { HostSide.reset with cancelIn := some 0 })).pc = 0x3000#16 ∧
    (after (at3000 0x0000#16 [] [] { HostSide.reset with cancelIn := some 0 })).runState = .cancelled ∧
    (after (at3000 0xF023#16 [] [] { host [] [] with cancelIn := some 1 })).runState = .cancelled := by decide

/-- RegisterWriters, CondWriters and PcWriters: next states with registers, COND and PC to compare, and a wait (the faults
are in test_witness_OnlyListedFaults). -/
theorem test_witness_writers :
    (∃ t, exec (.addReg 0#3 1#3 2#3) State.reset = .next t ∧ (1#3 : Reg) ∉ regTargets (.addReg 0#3 1#3 2#3)) ∧
    (∃ t, exec (.jsrr 7#3) answered = .next t ∧ setsCond (.jsrr 7#3) = false) ∧
    (∃ t, exec (.br true false false 1#9) answered = .next t ∧ answered.cond = .n) ∧
    (∃ t, exec (.br false true true 1#9) answered = .next t ∧ answered.cond = .n) ∧
    (∃ w, exec .inp waiting = .fault (.waitingForCharacter w)) :=
  ⟨⟨_, rfl, by decide⟩, ⟨_, rfl, by decide⟩, ⟨_, rfl, by decide⟩, ⟨_, rfl, by decide⟩, ⟨_, rfl⟩⟩

/-- MemoryWriters: a cell beside a store, and a cell beside KBSR and KBDR under a read that polls. -/
theorem test_witness_MemoryWriters :
    (∃ t, exec (.st 0#3 0#9) string = .next t ∧ dataWrite (.st 0#3 0#9) string ≠ some 0xFE00#16 ∧
      0xFE00#16 ∉ dataReads (.st 0#3 0#9) string) ∧
    (∃ t, exec (.ldr 1#3 0#3 0#6) stringInKbsr = .next t ∧ dataWrite (.ldr 1#3 0#3 0#6) stringInKbsr ≠ some 0xFE01#16 ∧
      0xFE01#16 ≠ 0xFE00#16 ∧ 0xFE01#16 ≠ 0xFE02#16) :=
  ⟨⟨_, rfl, by decide, by decide⟩, ⟨_, rfl, by decide, by decide, by decide⟩⟩

theorem test_witness_InputConsumers_HostUnseenWithoutInput :
    (∃ t, exec (.ldi 0#3 0#9) answered = .next t ∧ takesChar (.ldi 0#3 0#9) = false ∧
      0xFE00#16 ∉ dataReads (.ldi 0#3 0#9) answered) ∧
    (∃ t, exec .puts string = .next t ∧ takesChar .puts = false ∧ 0xFE00#16 ∉ dataReads .puts string) :=
  ⟨⟨_, rfl, by decide, by decide⟩, ⟨_, rfl, by decide, by decide⟩⟩

theorem test_witness_StepKeepsMemoryCanonical :
    Memory.wf string.mem ∧ string.mem ≠ [] ∧ goesOn (step string) = true := by decide

theorem test_witness_StreamsOnlyGrow :
    ∃ t, Reaches (state 0x3000#16 .z [(0#3, 0x0048#16)] [(0x3000#16, 0xF021#16)] HostSide.reset) t ∧
      t.host.output = [0x48#8] :=
  ⟨_, .step .here rfl, by decide⟩

/-- ImageFormat, ImagePlacement and LaterImageWins: images that end at the top of memory, and one that covers part of
another. -/
theorem test_witness_images :
    (∃ i, parseImage [0x30#8, 0x00#8, 0x12#8, 0x34#8] = .ok i) ∧
    (0xFFFF#16).toNat + [0x1234#16].length ≤ 0x10000 ∧ (0x0000#16).toNat + ([] : List Word).length ≤ 0x10000 ∧
    (0x3000#16).toNat + [0x1111#16, 0x2222#16].length ≤ 0x10000 ∧
    (0x3000#16).toNat + 0 < (0x3001#16).toNat ∧ (0x3001#16).toNat + [0x3333#16].length ≤ (0x3002#16).toNat ∧
    (0x3001#16).toNat + 0 = (0x3000#16).toNat + 1 := ⟨⟨_, rfl⟩, by decide⟩

theorem test_witness_LaunchStartState :
    (∃ s, launch (Vector.replicate 8 0x0007#16) HostSide.reset [[0x40#8, 0x00#8, 0xF0#8, 0x25#8]] = .ok s) ∧
    (∃ e, parseImage [0x30#8] = .error e ∧ [0x30#8] ∈ [[0x40#8, 0x00#8, 0xF0#8, 0x25#8], [0x30#8]]) :=
  ⟨⟨_, rfl⟩, ⟨_, rfl, by decide⟩⟩

end Sys2Proof.Tests
end

/-!
SUPPORT. What an answer of `exec` carries, TRAP as a second spelling of the routines' rows, and a few laws of the shared
operations that the statements about what an instruction writes have in common.
-/

namespace Sys2Proof.Machine

/-! ### The state an answer carries -/

/-- The answer carries a state, whether a next state or the state of a fault, and `P` holds of it. No answer that refuses
an instruction carries one. -/
def Carries (P : State → Prop) : Result → Prop
  | .next t => P t
  | .fault (.fatal _ f) => P f
  | .fault (.waitingForCharacter w) => P w
  | .fault (.noStep t) => P t
  | .refused _ => False

theorem Carries.next {P : State → Prop} {x : Result} {t : State} (h : Carries P x) (e : x = .next t) : P t := by
  rwa [e] at h

theorem Carries.fatal {P : State → Prop} {x : Result} {reason : FaultReason} {f : State} (h : Carries P x)
    (e : x = .fault (.fatal reason f)) : P f := by
  rwa [e] at h

theorem Carries.waiting {P : State → Prop} {x : Result} {w : State} (h : Carries P x)
    (e : x = .fault (.waitingForCharacter w)) : P w := by
  rwa [e] at h

theorem Carries.mono {P Q : State → Prop} {x : Result} (h : Carries P x) (hPQ : ∀ t, P t → Q t) : Carries Q x := by
  match x, h with
  | .next t, h => exact hPQ t h
  | .fault (.fatal _ f), h => exact hPQ f h
  | .fault (.waitingForCharacter w), h => exact hPQ w h
  | .fault (.noStep t), h => exact hPQ t h

theorem carries_withChar {P : State → Prop} {s : State} {k : Word → State → State} (hcancel : P (cancelRun s))
    (hwait : P s) (hchar : P (k (nextChar s.host) (setHost s (afterChar s.host)))) : Carries P (withChar s k) := by
  rcases withChar_cases s k with ⟨_, _, e⟩ | ⟨_, _, e⟩ | ⟨_, e⟩ <;> rw [e]
  · exact hcancel
  · exact hwait
  · exact hchar

theorem carries_getc {P : State → Prop} {s : State} (hcancel : P (cancelRun (trapEntry s))) (hwait : P (trapEntry s))
    (hchar : P (writeResult (setHost (trapEntry s) (afterChar s.host)) 0#3 (nextChar s.host))) :
    Carries P (exec .getc s) :=
  carries_withChar (s := trapEntry s) (k := fun c t => writeResult t 0#3 c) hcancel hwait hchar

/-- The state in which IN asks for its character: R7 saved and the prompt written (R104). -/
def prompted (s : State) : State := putBytes (trapEntry s) Config.inPrompt

theorem carries_inp {P : State → Prop} {s : State} (hcancel : P (cancelRun (prompted s))) (hwait : P (prompted s))
    (hchar : P (writeResult
      (putByte (setHost (prompted s) (afterChar (prompted s).host)) (lowByte (nextChar (prompted s).host))) 0#3
      (nextChar (prompted s).host))) :
    Carries P (exec .inp s) :=
  carries_withChar (k := fun c t => writeResult (putByte t (lowByte c)) 0#3 c) hcancel hwait hchar

theorem carries_putString {P : State → Prop} {s : State} (f : Word → List Byte) (hnext : ∀ bs, P (putBytes s bs))
    (hfault : ∀ bs r, P (setRunState (putBytes s bs) r)) : Carries P (putString f s) := by
  rcases putString_cases f s with ⟨_, e⟩ | ⟨a, _, e⟩ <;> rw [e]
  · exact hnext _
  · exact hfault _ _

/-! ### TRAP with a vector means what the vector's own row means (R100, R107) -/

theorem exec_trap (v : BitVec 8) (s : State) : exec (.trap v) s = exec (decodeTrap v) s := by
  show dispatchTrap v (trapEntry s) = _
  unfold dispatchTrap decodeTrap
  split_ifs <;> rfl

theorem decodeTrap_ne_trap (v u : BitVec 8) : decodeTrap v ≠ .trap u := by
  unfold decodeTrap
  split_ifs <;> exact nofun

/-- A claim about every instruction, from the rows other than TRAP and from TRAP taking over the claim of the row its
vector names. -/
theorem trap_induction {Q : Instr → Prop} (row : ∀ i, (∀ v, i ≠ .trap v) → Q i)
    (trap : ∀ v, Q (decodeTrap v) → Q (.trap v)) (i : Instr) : Q i := by
  by_cases h : ∃ v, i = .trap v
  · obtain ⟨v, rfl⟩ := h
    exact trap v (row _ (decodeTrap_ne_trap v))
  · exact row i (not_exists.mp h)

theorem regTargets_decodeTrap (v : BitVec 8) : regTargets (decodeTrap v) = regTargets (.trap v) := by
  unfold decodeTrap
  split_ifs <;> simp_all [regTargets]

theorem setsCond_decodeTrap (v : BitVec 8) : setsCond (decodeTrap v) = setsCond (.trap v) := by
  unfold decodeTrap
  split_ifs <;> simp_all [setsCond]

theorem takesChar_decodeTrap (v : BitVec 8) : takesChar (decodeTrap v) = takesChar (.trap v) := by
  unfold decodeTrap
  split_ifs <;> simp_all [takesChar]

theorem dataReads_decodeTrap (v : BitVec 8) (s : State) : dataReads (decodeTrap v) s = [] := by
  unfold decodeTrap
  split_ifs <;> rfl

/-! ### Reads, branches and strings -/

/-- The two readings of sign extension agree (R12). -/
theorem sext16_eq_signedWord {n : Nat} (f : BitVec n) : sext16 f = signedWord f := rfl

theorem branchTaken_iff (n z p : Bool) (c : Cond) :
    branchTaken n z p c = true ↔ (n = true ∧ c = .n) ∨ (z = true ∧ c = .z) ∨ (p = true ∧ c = .p) := by
  cases c <;> simp [branchTaken]

theorem exec_br (n z p : Bool) (off : BitVec 9) (s : State) :
    exec (.br n z p off) s =
      if branchTaken n z p s.cond then .next (setPc s (pcRelative s off)) else .next s :=
  apply_ite Host.Outcome.next _ _ _

theorem carries_br {P : State → Prop} {n z p : Bool} {off : BitVec 9} {s : State}
    (taken : P (setPc s (pcRelative s off))) (fallen : P s) : Carries P (exec (.br n z p off) s) := by
  rw [exec_br]
  split
  · exact taken
  · exact fallen

theorem readReg_writeResult_other (s : State) {q r : Reg} (v : Word) (h : q ≠ r) :
    readReg (writeResult s r v) q = readReg s q :=
  readReg_writeReg_other s v h

theorem readReg_loadResult_other (s : State) {q dr : Reg} (ea : Word) (h : q ≠ dr) :
    readReg (loadResult s dr ea) q = readReg s q := by
  rw [loadResult, readReg_writeResult_other _ _ h, memRead_snd, readReg_afterRead]

theorem readReg_trapEntry_other (s : State) {q : Reg} (h : q ≠ 7#3) : readReg (trapEntry s) q = readReg s q :=
  readReg_writeReg_other s s.pc h

theorem memRead_other (s : State) {a : Word} (h : a ≠ Config.kbsr) : memRead s a = (cell s a, s) := by
  rw [memRead, afterRead_other s h]

theorem exec_ldi_other {s : State} {dr : Reg} {off : BitVec 9} (h : pcRelative s off ≠ Config.kbsr) :
    exec (.ldi dr off) s = .next (loadResult s dr (cell s (pcRelative s off))) := by
  rw [exec, execLdi, memRead_other s h]

theorem exec_sti_other {s : State} {sr : Reg} {off : BitVec 9} (h : pcRelative s off ≠ Config.kbsr) :
    exec (.sti sr off) s = .next (memWrite s (cell s (pcRelative s off)) (readReg s sr)) := by
  rw [exec, execSti, memRead_other s h]

theorem putString_of_scan {f : Word → List Byte} {s : State} (h : (scanString s (readReg s 0#3)).2 = none) :
    putString f s = .next (putBytes s ((scanString s (readReg s 0#3)).1.flatMap f)) := by
  rw [putString, h]

/-! ### The streams along a run (10_state.md R29) -/

/-- `h'` has all the output and all the input history of `h`, and perhaps more. -/
structure StreamsExtend (h h' : HostSide) : Prop where
  output : h.output <+: h'.output
  consumed : h.consumed <+: h'.consumed

theorem StreamsExtend.refl (h : HostSide) : StreamsExtend h h := ⟨List.prefix_rfl, List.prefix_rfl⟩

theorem StreamsExtend.trans {h₁ h₂ h₃ : HostSide} (h : StreamsExtend h₁ h₂) (h' : StreamsExtend h₂ h₃) :
    StreamsExtend h₁ h₃ :=
  ⟨h.output.trans h'.output, h.consumed.trans h'.consumed⟩

theorem streamsExtend_putBytes (s : State) (bs : List Byte) : StreamsExtend s.host (putBytes s bs).host :=
  ⟨List.prefix_append _ _, List.prefix_rfl⟩

theorem streamsExtend_afterChar (h : HostSide) : StreamsExtend h (afterChar h) :=
  ⟨List.prefix_rfl, List.prefix_append _ _⟩

theorem streamsExtend_afterKey (h : HostSide) : StreamsExtend h (afterKey h) :=
  ⟨List.prefix_rfl, List.prefix_rfl⟩

theorem streamsExtend_passBoundary (s : State) : StreamsExtend s.host (passBoundary s).host :=
  ⟨List.prefix_rfl, List.prefix_rfl⟩

theorem streamsExtend_keyboardPoll (s : State) : StreamsExtend s.host (keyboardPoll s).host := by
  rw [keyboardPoll_host]
  split
  · exact (streamsExtend_afterKey s.host).trans (streamsExtend_afterChar _)
  · exact streamsExtend_afterKey s.host

theorem streamsExtend_afterRead (s : State) (a : Word) : StreamsExtend s.host (afterRead s a).host := by
  unfold afterRead
  split
  · exact streamsExtend_keyboardPoll s
  · exact .refl s.host

/-- Whatever an instruction answers, the state it carries keeps what was written and consumed before. -/
theorem exec_extends_streams (i : Instr) (s : State) :
    Carries (fun t => StreamsExtend s.host t.host) (exec i s) := by
  induction i using trap_induction with
  | trap v ih => rwa [exec_trap]
  | row i hi =>
    have write : ∀ bs, StreamsExtend s.host (putBytes (trapEntry s) bs).host :=
      streamsExtend_putBytes (trapEntry s)
    cases i
    case trap v => exact absurd rfl (hi v)
    case br => exact carries_br (.refl s.host) (.refl s.host)
    case addReg | addImm | andReg | andImm | not | lea | st | str | jmp | ret | jsr | jsrr | rti | res |
        trapUndefined =>
      exact .refl s.host
    case ld | ldr | sti => exact streamsExtend_afterRead s _
    case ldi => exact (streamsExtend_afterRead s _).trans (streamsExtend_afterRead (afterRead s _) _)
    case out | halt => exact write _
    case puts | putsp => exact carries_putString _ write fun bs _ => write bs
    case getc => exact carries_getc (.refl s.host) (.refl s.host) (streamsExtend_afterChar s.host)
    case inp =>
      have prompt : StreamsExtend s.host (prompted s).host := write Config.inPrompt
      have char := prompt.trans (streamsExtend_afterChar _)
      exact carries_inp prompt prompt (char.trans (streamsExtend_putBytes (setHost s _) _))

theorem runInstruction_extends_streams (s : State) :
    Carries (fun t => StreamsExtend s.host t.host) (runInstruction s) :=
  (exec_extends_streams _ (fetch s).2).mono fun _ => (streamsExtend_afterRead s s.pc).trans

theorem step_extends_streams (s : State) : Carries (fun t => StreamsExtend s.host t.host) (step s) := by
  rcases step_cases s with ⟨_, e⟩ | ⟨_, _, e⟩ | ⟨_, _, e⟩ <;> rw [e]
  · exact .refl s.host
  · exact .refl s.host
  · exact (runInstruction_extends_streams (passBoundary s)).mono fun _ => (streamsExtend_passBoundary s).trans

theorem Reaches.extends_streams {s t : State} (h : Reaches s t) : StreamsExtend s.host t.host := by
  induction h with
  | here => exact .refl s.host
  | step _ e ih => exact ih.trans ((step_extends_streams _).next e)

/-- Settles O54, by induction on the run: every step extends both streams, because every instruction does. -/
theorem streamsOnlyGrow : Obligations.StreamsOnlyGrow :=
  fun _ _ h => ⟨h.extends_streams.output, h.extends_streams.consumed⟩

/-! ### What an instruction writes of the registers, COND and PC (10_state.md R19, R21, R23) -/

/-- Whatever an instruction answers, the state it carries keeps every register outside `regTargets`: what is written is a
result's own register, or R7 by the trap entry or the link of a call. -/
theorem exec_keeps_other_regs (i : Instr) (s : State) :
    Carries (fun t => ∀ r, r ∉ regTargets i → readReg t r = readReg s r) (exec i s) := by
  induction i using trap_induction with
  | trap v ih => rwa [exec_trap, ← regTargets_decodeTrap]
  | row i hi =>
    have entry : ∀ r, r ∉ [7#3] → readReg (trapEntry s) r = readReg s r :=
      fun r hr => readReg_trapEntry_other s (List.ne_of_not_mem_cons hr)
    have entryR0 : ∀ r, r ∉ [0#3, 7#3] → readReg (trapEntry s) r = readReg s r :=
      fun r hr => entry r (List.not_mem_of_not_mem_cons hr)
    cases i
    case trap v => exact absurd rfl (hi v)
    case addReg | addImm | andReg | andImm | not | lea =>
      exact fun r hr => readReg_writeResult_other s _ (List.ne_of_not_mem_cons hr)
    case ld | ldr => exact fun r hr => readReg_loadResult_other s _ (List.ne_of_not_mem_cons hr)
    case ldi =>
      exact fun r hr => (readReg_loadResult_other _ _ (List.ne_of_not_mem_cons hr)).trans (readReg_afterRead s _ r)
    case st | str | jmp | ret | rti | res => exact fun _ _ => rfl
    case sti => exact fun r _ => readReg_afterRead s _ r
    case br => exact carries_br (fun _ _ => rfl) (fun _ _ => rfl)
    case jsr | jsrr | out | halt | trapUndefined => exact entry
    case puts | putsp => exact carries_putString _ (fun _ => entry) (fun _ _ => entry)
    case getc =>
      exact carries_getc entryR0 entryR0 fun r hr =>
        (readReg_writeResult_other _ _ (List.ne_of_not_mem_cons hr)).trans (entryR0 r hr)
    case inp =>
      exact carries_inp entryR0 entryR0 fun r hr =>
        (readReg_writeResult_other _ _ (List.ne_of_not_mem_cons hr)).trans (entryR0 r hr)

/-- Settles O46: `exec_keeps_other_regs` for the answers that are next states. -/
theorem registerWriters : Obligations.RegisterWriters :=
  fun i s _ e => (exec_keeps_other_regs i s).next e

theorem exec_keeps_cond {i : Instr} (s : State) (h : setsCond i = false) :
    Carries (fun t => t.cond = s.cond) (exec i s) := by
  induction i using trap_induction with
  | trap v ih => exact exec_trap v s ▸ ih (setsCond_decodeTrap v ▸ h)
  | row i hi =>
    cases i
    case trap v => exact absurd rfl (hi v)
    case addReg | addImm | andReg | andImm | not | lea | ld | ldi | ldr | getc | inp => nomatch h
    case br => exact carries_br rfl rfl
    case sti => exact afterRead_cond s _
    case st | str | jmp | ret | jsr | jsrr | rti | res | out | halt | trapUndefined => exact rfl
    case puts | putsp => exact carries_putString _ (fun _ => rfl) (fun _ _ => rfl)

/-- Settles O47: `exec_keeps_cond` for the answers that are next states. -/
theorem condWriters : Obligations.CondWriters :=
  fun _ s _ e h => (exec_keeps_cond s h).next e

/-- Whether an instruction writes PC after the fetch has incremented it (R21). -/
def setsPc : Instr → Bool
  | .br _ _ _ _ | .jmp _ | .ret | .jsr _ | .jsrr _ => true
  | _ => false

theorem setsPc_decodeTrap (v : BitVec 8) : setsPc (decodeTrap v) = false := by
  unfold decodeTrap
  split_ifs <;> rfl

theorem exec_keeps_pc {i : Instr} (s : State) (h : setsPc i = false) :
    Carries (fun t => t.pc = s.pc) (exec i s) := by
  induction i using trap_induction with
  | trap v ih => exact exec_trap v s ▸ ih (setsPc_decodeTrap v)
  | row i hi =>
    cases i
    case trap v => exact absurd rfl (hi v)
    case br | jmp | ret | jsr | jsrr => nomatch h
    case ld | ldr | sti => exact afterRead_pc s _
    case ldi => exact (afterRead_pc _ _).trans (afterRead_pc s _)
    case addReg | addImm | andReg | andImm | not | lea | st | str | rti | res | out | halt | trapUndefined => exact rfl
    case puts | putsp => exact carries_putString _ (fun _ => rfl) (fun _ _ => rfl)
    case getc => exact carries_getc rfl rfl rfl
    case inp => exact carries_inp rfl rfl rfl

theorem exec_next_of_setsPc {i : Instr} (s : State) (h : setsPc i = true) : ∃ t, exec i s = .next t := by
  cases i
  case br | jmp | ret | jsr | jsrr => exact ⟨_, rfl⟩
  all_goals nomatch h

/-- An instruction that faults or waits is none of those that write PC. -/
theorem setsPc_of_fault {i : Instr} {s : State} {r : Fault} (e : exec i s = .fault r) : setsPc i = false := by
  by_contra h
  obtain ⟨t, ht⟩ := exec_next_of_setsPc s (Bool.not_eq_false _ ▸ h)
  rw [e] at ht
  nomatch ht

/-- Settles O48: the five instructions that write PC by their targets, the others by `exec_keeps_pc`. -/
theorem pcWriters : Obligations.PcWriters := by
  refine ⟨fun i s f _ e => (exec_keeps_pc s (setsPc_of_fault e)).fatal e,
    fun i s w e => (exec_keeps_pc s (setsPc_of_fault e)).waiting e, fun i s t e => ?_⟩
  cases i
  case br n z p off =>
    cases e
    simp only [← branchTaken_iff, ← sext16_eq_signedWord]
    split <;> rfl
  case jmp | ret | jsr => cases e; rfl
  case jsrr base => cases e; exact readReg_writeReg s base 7#3 s.pc
  all_goals exact (exec_keeps_pc s rfl).next e

/-! ### The host is unseen by an instruction that takes no input (10_state.md R28) -/

theorem loadResult_setHost (s : State) (h : HostSide) (dr : Reg) {ea : Word} (hea : ea ≠ Config.kbsr) :
    loadResult (setHost s h) dr ea = setHost (loadResult s dr ea) h := by
  rw [loadResult, loadResult, memRead_other _ hea, memRead_other _ hea]
  rfl

theorem putString_setHost {f : Word → List Byte} {s t : State} (h : HostSide) (e : putString f s = .next t) :
    ∃ h', putString f (setHost s h) = .next (setHost t h') := by
  rcases putString_cases f s with ⟨hn, en⟩ | ⟨_, _, ef⟩
  · cases en.symm.trans e
    exact ⟨_, putString_of_scan (s := setHost s h) hn⟩
  · nomatch ef.symm.trans e

/-- With another host side the answer differs in the host side only. -/
theorem exec_setHost {i : Instr} {s t : State} (h : HostSide) (e : exec i s = .next t) (hc : takesChar i = false)
    (hr : Config.kbsr ∉ dataReads i s) : ∃ h', exec i (setHost s h) = .next (setHost t h') := by
  induction i using trap_induction with
  | trap v ih =>
    rw [exec_trap] at e ⊢
    exact ih e (takesChar_decodeTrap v ▸ hc) (dataReads_decodeTrap v s ▸ hr)
  | row i hi =>
    cases i
    case trap v => exact absurd rfl (hi v)
    case getc | inp => nomatch hc
    case rti | res | trapUndefined => nomatch e
    case addReg | addImm | andReg | andImm | not | lea | st | str | jmp | ret | jsr | jsrr | out | halt =>
      cases e
      exact ⟨_, rfl⟩
    case br n z p off =>
      rw [exec_br] at e ⊢
      rw [setHost_cond]
      split_ifs at e ⊢ <;> cases e <;> exact ⟨h, rfl⟩
    case ld | ldr =>
      cases e
      exact ⟨h, congrArg _ (loadResult_setHost s h _ (List.ne_of_not_mem_cons hr).symm)⟩
    case ldi dr off =>
      have hp : pcRelative s off ≠ Config.kbsr := (List.ne_of_not_mem_cons hr).symm
      have hd : cell s (pcRelative s off) ≠ Config.kbsr := by
        have hd := (List.ne_of_not_mem_cons (List.not_mem_of_not_mem_cons hr)).symm
        rwa [← sext16_eq_signedWord, ← pcRelative, memRead_other s hp] at hd
      rw [exec_ldi_other hp] at e
      cases e
      exact ⟨h, (exec_ldi_other (s := setHost s h) hp).trans (congrArg _ (loadResult_setHost s h dr hd))⟩
    case sti sr off =>
      have hp : pcRelative s off ≠ Config.kbsr := (List.ne_of_not_mem_cons hr).symm
      rw [exec_sti_other hp] at e
      cases e
      exact ⟨h, exec_sti_other (s := setHost s h) hp⟩
    case puts | putsp => exact putString_setHost (s := trapEntry s) h e

/-- Settles O51: with another host side the next state is the same but for the host side. -/
theorem hostUnseenWithoutInput : Obligations.HostUnseenWithoutInput := by
  intro i s t h e hc hr
  obtain ⟨h', e'⟩ := exec_setHost h e hc hr
  exact ⟨_, e', rfl, rfl, rfl, rfl, rfl⟩

/-! ### Terminal run states and the initial state (10_state.md R24, R30 to R33) -/

theorem ne_running_of_terminal {r : RunState} (h : r.terminal = true) : r ≠ .running := by
  rintro rfl
  nomatch h

theorem step_of_not_running {s : State} (h : s.runState ≠ .running) : step s = .fault (.noStep s) := if_neg h

/-- Settles O43: a terminal run state is not RUNNING, which `step` tests first. -/
theorem terminalStatesHaveNoStep : Obligations.TerminalStatesHaveNoStep :=
  fun _ h => step_of_not_running (ne_running_of_terminal h)

@[simp] theorem cell_initial (g : Vector Word 8) (h : HostSide) (a : Word) : cell (State.initial g h) a = 0x0000#16 :=
  rfl

/-- Settles O53: reset is an initial state, so its memory lists no cell. -/
theorem resetMemoryCanonical : Obligations.ResetMemoryCanonical :=
  ⟨wf_reset, cell_initial _ _⟩

/-- Settles O55, from the laws of `State.initial`. -/
theorem initialState : Obligations.InitialState :=
  fun g h => ⟨fun _ => rfl, initial_pc g h, initial_cond g h, cell_initial g h, initial_runState g h, rfl, rfl⟩

end Sys2Proof.Machine

/-!
SUPPORT. The two memory operations and the keyboard poll, what an instruction does to memory and to the input stream through
its data accesses, and the statements of 20_memory.md that follow.
-/

namespace Sys2Proof.Machine

/-! ### MemRead, MemWrite and the keyboard poll (20_memory.md R36 to R38, R50) -/

theorem memRead_kbsr (s : State) : memRead s Config.kbsr = (cell (keyboardPoll s) Config.kbsr, keyboardPoll s) := by
  rw [memRead, afterRead_kbsr]

theorem memWrite_storesCell (s : State) (a v : Word) : StoresCell s (memWrite s a v) a v where
  stored := cell_setCell_same s a v
  mem _ h := cell_setCell_other s v h
  regs _ := rfl
  cond := rfl
  pc := rfl
  run := rfl
  host := rfl

/-- Settles O38, from the laws of the two operations. -/
theorem memoryAccess : Obligations.MemoryAccess :=
  ⟨memRead_kbsr, fun s _ h => memRead_other s h, memWrite_storesCell⟩

theorem kbsr_ne_kbdr : Config.kbsr ≠ Config.kbdr := by decide

section
variable {s : State}

theorem cell_keyboardPoll_found (h : nextKey s.host = true) (a : Word) :
    cell (keyboardPoll s) a =
      if a = Config.kbdr then nextChar s.host
      else if a = Config.kbsr then cell s Config.kbsr ||| 0x8000#16
      else cell s a := by
  rw [cell_keyboardPoll, if_pos h]

theorem cell_keyboardPoll_empty (h : nextKey s.host = false) (a : Word) :
    cell (keyboardPoll s) a = if a = Config.kbsr then 0x0000#16 else cell s a := by
  rw [cell_keyboardPoll, if_neg (Bool.eq_false_iff.mp h)]

theorem keyboardPoll_host_found (h : nextKey s.host = true) : (keyboardPoll s).host = afterChar (afterKey s.host) := by
  rw [keyboardPoll_host, if_pos h]

theorem keyboardPoll_host_empty (h : nextKey s.host = false) : (keyboardPoll s).host = afterKey s.host := by
  rw [keyboardPoll_host, if_neg (Bool.eq_false_iff.mp h)]

end

/-- Settles O39: cells and the host's side by the laws of the two answers, the frame by the laws of the poll. -/
theorem keyboardPolls : Obligations.KeyboardPolls := by
  intro s
  refine ⟨fun key => ?found, fun noKey => ?empty, readReg_keyboardPoll s, keyboardPoll_pc s, keyboardPoll_cond s,
    keyboardPoll_runState s, keyboardPoll_output s⟩
  case found =>
    have cells := cell_keyboardPoll_found key
    rw [keyboardPoll_host_found key]
    exact ⟨(cells Config.kbsr).trans ((if_neg kbsr_ne_kbdr).trans (if_pos rfl)),
      (cells Config.kbdr).trans (if_pos rfl),
      fun a hsr hdr => (cells a).trans ((if_neg hdr).trans (if_neg hsr)), rfl, rfl⟩
  case empty =>
    have cells := cell_keyboardPoll_empty noKey
    rw [keyboardPoll_host_empty noKey]
    exact ⟨(cells Config.kbsr).trans (if_pos rfl), fun a hsr => (cells a).trans (if_neg hsr), rfl, rfl⟩

/-- Settles O41: the fetch reads the cell just stored, and only a fetch from KBSR polls first. -/
theorem storedCodeIsFetched : Obligations.StoredCodeIsFetched := by
  intro s a v h
  rw [fetch_fst, setPc_pc, afterRead_other _ h]
  exact cell_setCell_same s a v

/-! ### What an instruction's data accesses do (20_memory.md R34, R42, R44) -/

/-- The state after all of an instruction's data reads, in their order. -/
def afterDataReads (i : Instr) (s : State) : State := (dataReads i s).foldl afterRead s

theorem afterDataReads_decodeTrap (v : BitVec 8) (s : State) :
    afterDataReads (decodeTrap v) s = afterDataReads (.trap v) s :=
  congrArg (List.foldl afterRead s) (dataReads_decodeTrap v s)

theorem dataWrite_decodeTrap (v : BitVec 8) (s : State) : dataWrite (decodeTrap v) s = dataWrite (.trap v) s := by
  unfold decodeTrap
  split_ifs <;> rfl

/-- `m` is what an instruction's data accesses make of memory: its reads, then its store if it has one. -/
def AccessesMemory (i : Instr) (s : State) (m : Memory) : Prop :=
  match dataWrite i s with
  | none => m = (afterDataReads i s).mem
  | some a => ∃ v, m = (memWrite (afterDataReads i s) a v).mem

theorem accessesMemory_decodeTrap (v : BitVec 8) (s : State) (m : Memory) :
    AccessesMemory (decodeTrap v) s m = AccessesMemory (.trap v) s m := by
  simp only [AccessesMemory, dataWrite_decodeTrap, afterDataReads_decodeTrap]

/-- Whatever an instruction answers, its data accesses are all that touches memory. -/
theorem exec_accessesMemory (i : Instr) (s : State) : Carries (fun t => AccessesMemory i s t.mem) (exec i s) := by
  induction i using trap_induction with
  | trap v ih => simpa only [exec_trap, accessesMemory_decodeTrap] using ih
  | row i hi =>
    cases i
    case trap v => exact absurd rfl (hi v)
    case st | str | sti => exact ⟨_, rfl⟩
    case ld | ldi | ldr => exact rfl
    case addReg | addImm | andReg | andImm | not | lea | jmp | ret | jsr | jsrr | rti | res | out | halt |
        trapUndefined => exact rfl
    case br => exact carries_br rfl rfl
    case puts | putsp => exact carries_putString _ (fun _ => rfl) (fun _ _ => rfl)
    case getc => exact carries_getc rfl rfl rfl
    case inp => exact carries_inp rfl rfl rfl

theorem wf_foldl_afterRead (as : List Word) {s : State} (h : Memory.wf s.mem) :
    Memory.wf (as.foldl afterRead s).mem := by
  induction as generalizing s with
  | nil => exact h
  | cons a as ih => exact ih (wf_afterRead s a h)

theorem AccessesMemory.wf {i : Instr} {s : State} {m : Memory} (h : AccessesMemory i s m) (hs : Memory.wf s.mem) :
    Memory.wf m := by
  have reads : Memory.wf (afterDataReads i s).mem := wf_foldl_afterRead _ hs
  unfold AccessesMemory at h
  split at h
  · exact h ▸ reads
  · obtain ⟨v, rfl⟩ := h
    exact wf_setCell _ _ v reads

theorem step_keeps_wf {s : State} (h : Memory.wf s.mem) : Carries (fun t => Memory.wf t.mem) (step s) := by
  rcases step_cases s with ⟨_, e⟩ | ⟨_, _, e⟩ | ⟨_, _, e⟩ <;> rw [e]
  · exact h
  · exact h
  · exact (exec_accessesMemory _ _).mono fun _ ht => ht.wf (wf_afterRead (passBoundary s) s.pc h)

/-- Settles O52: the fetch, an instruction's data reads and its store each keep the canonical form. -/
theorem stepKeepsMemoryCanonical : Obligations.StepKeepsMemoryCanonical :=
  fun _ _ h e => (step_keeps_wf h).next e

/-- Reads that never reach KBSR change nothing (R44). -/
theorem foldl_afterRead_other {as : List Word} (s : State) (h : Config.kbsr ∉ as) : as.foldl afterRead s = s := by
  induction as with
  | nil => rfl
  | cons a as ih =>
    rw [List.foldl_cons, afterRead_other s (List.ne_of_not_mem_cons h).symm, ih (List.not_mem_of_not_mem_cons h)]

theorem cell_foldl_afterRead (as : List Word) (s : State) {b : Word} (hsr : b ≠ Config.kbsr) (hdr : b ≠ Config.kbdr) :
    cell (as.foldl afterRead s) b = cell s b := by
  induction as generalizing s with
  | nil => rfl
  | cons a as ih => exact (ih (afterRead s a)).trans (cell_afterRead_other s a hsr hdr)

theorem cell_afterDataReads {i : Instr} {s : State} {a : Word}
    (h : (a ≠ Config.kbsr ∧ a ≠ Config.kbdr) ∨ Config.kbsr ∉ dataReads i s) :
    cell (afterDataReads i s) a = cell s a := by
  rcases h with ⟨hsr, hdr⟩ | h
  · exact cell_foldl_afterRead _ s hsr hdr
  · rw [afterDataReads, foldl_afterRead_other s h]

theorem AccessesMemory.memLookup_other {i : Instr} {s : State} {m : Memory} {a : Word} (h : AccessesMemory i s m)
    (ha : dataWrite i s ≠ some a) : memLookup m a.toNat = cell (afterDataReads i s) a := by
  unfold AccessesMemory at h
  split at h
  · exact h ▸ rfl
  · next b hb =>
    obtain ⟨v, rfl⟩ := h
    exact cell_setCell_other _ v fun e => ha (e ▸ hb)

/-- Settles O49: a cell that is not stored to reads as the data reads left it. -/
theorem memoryWriters : Obligations.MemoryWriters := fun i s _ e _ ha hr =>
  (((exec_accessesMemory i s).next e).memLookup_other ha).trans (cell_afterDataReads hr)

/-! ### What an instruction takes from the host (20_memory.md R44, 10_state.md R28) -/

/-- `h'` has taken from the host what `h` has, and has the same to come. -/
structure SameInput (h h' : HostSide) : Prop where
  consumed : h'.consumed = h.consumed
  chars : h'.chars = h.chars
  keys : h'.keys = h.keys

theorem SameInput.refl (h : HostSide) : SameInput h h := ⟨rfl, rfl, rfl⟩

theorem sameInput_putBytes (s : State) (bs : List Byte) : SameInput s.host (putBytes s bs).host := ⟨rfl, rfl, rfl⟩

/-- An instruction other than GETC and IN takes input by its data reads only. -/
theorem exec_sameInput {i : Instr} (s : State) (h : takesChar i = false) :
    Carries (fun t => SameInput (afterDataReads i s).host t.host) (exec i s) := by
  induction i using trap_induction with
  | trap v ih => exact exec_trap v s ▸ afterDataReads_decodeTrap v s ▸ ih (takesChar_decodeTrap v ▸ h)
  | row i hi =>
    cases i
    case trap v => exact absurd rfl (hi v)
    case getc | inp => nomatch h
    case addReg | addImm | andReg | andImm | not | lea | ld | ldi | ldr | st | sti | str | jmp | ret | jsr | jsrr | rti |
        res | trapUndefined => exact .refl _
    case br => exact carries_br (.refl _) (.refl _)
    case out | halt => exact sameInput_putBytes (trapEntry s) _
    case puts | putsp =>
      exact carries_putString _ (sameInput_putBytes (trapEntry s)) fun bs _ => sameInput_putBytes (trapEntry s) bs

/-- Settles O50: data reads that never reach KBSR leave the host as it was. -/
theorem inputConsumers : Obligations.InputConsumers := by
  intro i s t e hc hr
  have same := (exec_sameInput s hc).next e
  rw [afterDataReads, foldl_afterRead_other s hr] at same
  exact ⟨same.consumed, same.chars, same.keys⟩

end Sys2Proof.Machine

/-!
SUPPORT. The fields of an encoded word, the rows a word decodes to, and the statements of 30_encoding.md: `decode` and
`encode` are inverse to each other up to the ignored bits of R65.
-/

namespace Sys2Proof.Machine

/-! ### A field at its place in a word -/

theorem extractLsb'_placeField_same {n lo : Nat} (f : BitVec n) (h : lo + n ≤ 16) :
    (placeField f lo).extractLsb' lo n = f := by
  refine BitVec.eq_of_getLsbD_eq fun k hk => ?_
  have hk16 : lo + k < 16 := by omega
  rw [BitVec.getLsbD_extractLsb', getLsbD_placeField]
  simp [hk, hk16]

theorem extractLsb'_placeField_other {n lo start len : Nat} (f : BitVec n)
    (h : start + len ≤ lo ∨ lo + n ≤ start) : (placeField f lo).extractLsb' start len = 0#len := by
  refine BitVec.eq_of_getLsbD_eq fun k hk => ?_
  rw [BitVec.getLsbD_extractLsb', BitVec.getLsbD_zero]
  rcases h with below | above
  · have : start + k < lo := by omega
    simp [getLsbD_placeField, this]
  · rw [getLsbD_placeField_above f (by omega), Bool.and_false]

/-- A word's own field at its place is the word under the mask of the field. -/
theorem placeField_extractLsb' (w : Word) (lo n : Nat) :
    placeField (w.extractLsb' lo n) lo = w &&& placeField (BitVec.allOnes n) lo := by
  refine BitVec.eq_of_getLsbD_eq fun k hk => ?_
  rw [BitVec.getLsbD_and, getLsbD_placeField, getLsbD_placeField, BitVec.getLsbD_extractLsb', BitVec.getLsbD_allOnes]
  by_cases h : k < lo
  · simp [h]
  · simp [h, hk, Nat.add_sub_cancel' (Nat.le_of_not_lt h), Bool.and_comm]

theorem extractLsb'_bit (w : Word) (k : Nat) : w.extractLsb' k 1 = BitVec.ofBool (w.getLsbD k) := by
  rw [BitVec.getLsbD_eq_extractLsb']
  generalize w.extractLsb' k 1 = b
  revert b
  decide

theorem ofBool_beq_one (b : Bool) : (BitVec.ofBool b == 1#1) = b := by cases b <;> rfl

/-- A word under the mask of one bit is that bit at its place. -/
theorem and_flag (w : Word) (k : Nat) :
    w &&& placeField 1#1 k = placeField (BitVec.ofBool (w.getLsbD k)) k := by
  rw [← extractLsb'_bit, placeField_extractLsb']
  rfl

theorem and_flag_of_set {w : Word} {k : Nat} (h : w.getLsbD k = true) : w &&& placeField 1#1 k = placeField 1#1 k := by
  rw [and_flag, h]
  rfl

theorem and_flag_of_clear {w : Word} {k : Nat} (h : ¬ w.getLsbD k = true) : w &&& placeField 1#1 k = 0#16 := by
  rw [and_flag, Bool.eq_false_of_not_eq_true h]
  exact BitVec.zero_shiftLeft k

/-! ### The row a word decodes to -/

theorem opcodeBits_opcodeOfBits (b : BitVec 4) : opcodeBits (opcodeOfBits b) = b := by
  revert b
  decide

@[simp] theorem opcode_decodeTrap (v : BitVec 8) : (decodeTrap v).opcode = .trap := by
  unfold decodeTrap
  split_ifs <;> rfl

@[simp] theorem encodeOperands_decodeTrap (v : BitVec 8) : encodeOperands (decodeTrap v) = placeField v 0 := by
  unfold decodeTrap
  split_ifs <;> subst_vars <;> rfl

@[simp] theorem ignoredBits_decodeTrap (v : BitVec 8) : ignoredBits (decodeTrap v) = 0x0F00#16 := by
  unfold decodeTrap
  split_ifs <;> rfl

theorem decodeTrap_of_undefined {v : BitVec 8} (h : vectorDefined v = false) : decodeTrap v = .trapUndefined v := by
  unfold decodeTrap
  split_ifs
  case neg => rfl
  all_goals subst_vars; nomatch h

@[simp] theorem wellFormed_decodeTrap (v : BitVec 8) : (decodeTrap v).wellFormed = true := by
  unfold decodeTrap
  split_ifs
  case neg =>
    simp only [Instr.wellFormed, vectorDefined, Bool.not_eq_true', decide_eq_false_iff_not]
    bv_omega
  all_goals rfl

@[simp] theorem opcode_decodeJmp (base : Reg) : (decodeJmp base).opcode = .jmp := by
  unfold decodeJmp
  split <;> rfl

@[simp] theorem encodeOperands_decodeJmp (base : Reg) : encodeOperands (decodeJmp base) = placeField base 6 := by
  unfold decodeJmp
  split <;> subst_vars <;> rfl

@[simp] theorem ignoredBits_decodeJmp (base : Reg) : ignoredBits (decodeJmp base) = 0x0E3F#16 := by
  unfold decodeJmp
  split <;> rfl

@[simp] theorem wellFormed_decodeJmp (base : Reg) : (decodeJmp base).wellFormed = true := by
  unfold decodeJmp
  split
  · rfl
  · exact bne_iff_ne.mpr ‹_›

/-- The opcode of the row is the one the word's bits 15:12 name (R55). -/
theorem opcode_decode (w : Word) : (decode w).opcode = opcodeOfBits (fieldOpcode w) := by
  cases op : opcodeOfBits (fieldOpcode w) <;> simp only [decode, op, opcode_decodeJmp, opcode_decodeTrap]
  case add | and | jsr => split <;> rfl
  all_goals rfl

theorem decode_of_opcode_jsr {w : Word} (h : fieldOpcode w = 0x4#4) :
    decode w = if fieldLongFlag w then .jsr (fieldOffset11 w) else .jsrr (fieldSR1 w) := by
  rw [decode, h]
  rfl

theorem decode_of_opcode_jmp {w : Word} (h : fieldOpcode w = 0xC#4) : decode w = decodeJmp (fieldSR1 w) := by
  rw [decode, h]
  rfl

theorem wellFormed_decode (w : Word) : (decode w).wellFormed = true := by
  cases op : opcodeOfBits (fieldOpcode w) <;> simp only [decode, op, wellFormed_decodeJmp, wellFormed_decodeTrap]
  case add | and | jsr => split <;> rfl
  all_goals rfl

theorem specialise_of_wellFormed {i : Instr} (h : i.wellFormed = true) : i.specialise = i := by
  cases i
  case jmp base => exact if_neg (bne_iff_ne.mp h)
  case trap v => nomatch h
  case trapUndefined v => exact decodeTrap_of_undefined (by simpa [Instr.wellFormed] using h)
  all_goals rfl

/-! ### Encoding the decoded row (R56, R65) -/

/-- Fields that fill the mask `m`, bits `c` that the word has clear, and together they cover the used bits `u`. -/
theorem and_fields_eq_used {w m c u : Word} (clear : w &&& c = 0#16) (cover : (m ||| c) &&& u = u) :
    w &&& m &&& u = w &&& u := by
  calc w &&& m &&& u = (w &&& m ||| w &&& c) &&& u := by rw [clear, BitVec.or_zero]
    _ = w &&& ((m ||| c) &&& u) := by rw [← BitVec.and_or_distrib_left, BitVec.and_assoc]
    _ = w &&& u := by rw [cover]

theorem opcode_field_decode (w : Word) :
    placeField (opcodeBits (decode w).opcode) 12 = w &&& placeField (BitVec.allOnes 4) 12 := by
  rw [opcode_decode, opcodeBits_opcodeOfBits, fieldOpcode, placeField_extractLsb']

/-- Each row's fields, written back to their places, are the word under a mask. That mask, with the immediate or long flag
where the row has it clear, covers the bits the row uses. -/
theorem encode_decode_used_bits (w : Word) :
    encode (decode w) &&& ~~~(ignoredBits (decode w)) = w &&& ~~~(ignoredBits (decode w)) := by
  rw [encode, opcode_field_decode]
  cases op : opcodeOfBits (fieldOpcode w) <;>
    simp only [decode, op, encodeOperands_decodeJmp, encodeOperands_decodeTrap, ignoredBits_decodeJmp,
      ignoredBits_decodeTrap]
  case' add | and | jsr => split
  all_goals
    simp only [encodeOperands, ignoredBits, fieldDR, fieldSR1, fieldSR2, fieldImm5, fieldOffset6, fieldOffset9,
      fieldOffset11, fieldTrapvect8, ← extractLsb'_bit, placeField_extractLsb', ← BitVec.and_or_distrib_left]
  case add.isTrue flag | and.isTrue flag | jsr.isTrue flag =>
    rw [← and_flag_of_set flag]
    simp only [← BitVec.and_or_distrib_left]
    exact and_fields_eq_used BitVec.and_zero (by decide)
  case add.isFalse flag | and.isFalse flag | jsr.isFalse flag =>
    exact and_fields_eq_used (and_flag_of_clear flag) (by decide)
  case not =>
    have ones : placeField 0b111111#6 0 &&& ~~~0x003F#16 = 0#16 := by decide
    rw [← BitVec.or_assoc, BitVec.and_or_distrib_right, ones, BitVec.or_zero, ← BitVec.and_or_distrib_left]
    exact and_fields_eq_used BitVec.and_zero (by decide)
  case rti | res =>
    rw [BitVec.or_zero]
    exact and_fields_eq_used BitVec.and_zero (by decide)
  case br | ld | st | ldr | str | ldi | sti | lea | jmp | trap => exact and_fields_eq_used BitVec.and_zero (by decide)

/-! ### A word that has the used bits of an encoded row (R56, R65) -/

/-- A word that agrees with the word of `i` outside the ignored bits decodes to the most specific row for it: each field
the decoder reads has no ignored bit, and in the word of `i` it holds the operand. -/
theorem decode_of_agree {w : Word} {i : Instr}
    (h : w &&& ~~~(ignoredBits i) = encode i &&& ~~~(ignoredBits i)) : decode w = i.specialise := by
  have field {start len : Nat} (used : (~~~(ignoredBits i)).extractLsb' start len = BitVec.allOnes len) :
      w.extractLsb' start len = (encode i).extractLsb' start len := extractLsb'_of_agree used h
  have op : opcodeOfBits (fieldOpcode w) = i.opcode := by
    rw [← opcodeOfBits_opcodeBits i.opcode, ← fieldOpcode_encode]
    exact congrArg opcodeOfBits (field (by cases i <;> simp [ignoredBits]))
  cases i <;> simp only [ignoredBits] at field <;>
    simp (disch := decide) only [decode, op, Instr.opcode, Instr.specialise, fieldDR, fieldSR1, fieldSR2, fieldImm5,
      fieldOffset6, fieldOffset9, fieldOffset11, fieldTrapvect8, fieldImmediateFlag, fieldLongFlag,
      BitVec.getLsbD_eq_extractLsb', field, encode, encodeOperands, BitVec.extractLsb'_or,
      extractLsb'_placeField_same, extractLsb'_placeField_other, BitVec.or_zero, BitVec.zero_or, ofBool_beq_one]
  case addReg | addImm | andReg | andImm | jsr | jsrr => rfl
  case ret | getc | out | puts | inp | putsp | halt => rfl

/-! ### A branch with no condition bit (R68) -/

theorem branchTaken_never (c : Cond) : branchTaken false false false c = false := by cases c <;> rfl

theorem exec_br_never (off : BitVec 9) (s : State) : exec (.br false false false off) s = .next s := by
  rw [exec_br, branchTaken_never]
  rfl

/-! ### The statements -/

theorem decode_encode (i : Instr) : decode (encode i) = i.specialise := decode_of_agree rfl

/-- Settles O1: an encoded word agrees with itself, and a well-formed instruction is its own most specific row. -/
theorem decodeEncodeAgree : Obligations.DecodeEncodeAgree :=
  ⟨decode_encode, fun i wf => (decode_encode i).trans (specialise_of_wellFormed wf)⟩

/-- Settles O2, row by row. -/
theorem encodeDecodeKeepsUsedBits : Obligations.EncodeDecodeKeepsUsedBits :=
  fun w => ⟨wellFormed_decode w, encode_decode_used_bits w⟩

/-- Settles O3: the second word, like the first, agrees with the word that encodes the first one's row. -/
theorem ignoredBitsHaveNoEffect : Obligations.IgnoredBitsHaveNoEffect := by
  intro w w' h
  have agree := h.symm.trans (encode_decode_used_bits w).symm
  exact (decode_of_agree agree).trans (specialise_of_wellFormed (wellFormed_decode w))

/-- Settles O4: the row's opcode is the one of the word's bits, and 0x4 and 0xC split as `decode` says. -/
theorem opcodeAssignment : Obligations.OpcodeAssignment := by
  intro w
  have op {b : BitVec 4} (h : fieldOpcode w = b) : (decode w).opcode = opcodeOfBits b := h ▸ opcode_decode w
  refine ⟨op, op, op, op, fun h => ⟨op h, fun long => ?_, fun short => ?_⟩, op, op, op, op, op, op, op,
    fun h => ⟨op h, fun base => ?_⟩, op, op, op⟩
  · exact ⟨_, (decode_of_opcode_jsr h).trans (if_pos long)⟩
  · exact ⟨_, (decode_of_opcode_jsr h).trans (if_neg (ne_true_of_eq_false short))⟩
  · exact (decode_of_opcode_jmp h).trans (if_pos base)

/-- Settles O5: the eight words, decoded. -/
theorem exampleWordsDecode : Obligations.ExampleWordsDecode := by
  unfold Obligations.ExampleWordsDecode
  decide

theorem decode_zero : decode 0x0000#16 = .br false false false 0#9 := by decide

/-- Settles O13: the word 0x0000 is a BR with no condition bit, and such a BR is never taken. -/
theorem branchNeverIsNoOp : Obligations.BranchNeverIsNoOp :=
  ⟨exec_br_never, fun s => decode_zero ▸ exec_br_never 0#9 s⟩

end Sys2Proof.Machine

/-!
SUPPORT. The fetch, the boundary before it, and a wait for a character, and the statements of 40_execution_loop.md: what a
step runs, and every outcome it can have.
-/

namespace Sys2Proof.Machine

/-! ### The fetch (40_execution_loop.md R73) -/

section
variable {s : State}

theorem fetch_other (h : s.pc ≠ Config.kbsr) : fetch s = (cell s s.pc, setPc s (s.pc + 1#16)) := by
  rw [fetch, memRead_other s h]

theorem fetch_kbsr (h : s.pc = Config.kbsr) :
    fetch s = (cell (keyboardPoll s) Config.kbsr, setPc (keyboardPoll s) 0xFE01#16) := by
  rw [fetch, h, memRead_kbsr]
  rfl

theorem fetch_runState (s : State) : (fetch s).2.runState = s.runState := afterRead_runState s s.pc

theorem fetch_cancelIn (s : State) : (fetch s).2.host.cancelIn = s.host.cancelIn := afterRead_cancelIn s s.pc

/-- The countdown at the boundary goes on unseen by the fetch. -/
theorem fetch_passBoundary (s : State) : fetch (passBoundary s) = ((fetch s).1, passBoundary (fetch s).2) := by
  rw [fetch, memRead, passBoundary_pc, afterRead_passBoundary]
  rfl

/-! ### The boundary before it (60_exceptions.md R118) -/

theorem passBoundary_cancelIn_eq_none (s : State) :
    (passBoundary s).host.cancelIn = none ↔ s.host.cancelIn = none :=
  Option.map_eq_none_iff

theorem passBoundary_countdown {n : Nat} (h : s.host.cancelIn = some (n + 1)) :
    passBoundary s = setHost s { s.host with cancelIn := some n } := by
  rw [passBoundary, h]
  rfl

/-- A step that the host does not cancel at the boundary (R73). -/
theorem step_of_passes (run : s.runState = .running) (pass : cancelsHere s.host = false) :
    step s = exec (decode (fetch s).1) (passBoundary (fetch s).2) := by
  rw [step, if_pos run, pass, runInstruction, fetch_passBoundary]
  rfl

theorem step_of_never_cancelled (run : s.runState = .running) (never : s.host.cancelIn = none) :
    step s = exec (decode (fetch s).1) (fetch s).2 := by
  have pass : cancelsHere s.host = false := by rw [cancelsHere, never]; rfl
  rw [step_of_passes run pass, passBoundary_uncancelled _ ((fetch_cancelIn s).trans never)]

theorem step_of_countdown {n : Nat} (run : s.runState = .running) (later : s.host.cancelIn = some (n + 1)) :
    step s = exec (decode (fetch s).1) (setHost (fetch s).2 { (fetch s).2.host with cancelIn := some n }) := by
  have pass : cancelsHere s.host = false := by rw [cancelsHere, later]; rfl
  rw [step_of_passes run pass, passBoundary_countdown ((fetch_cancelIn s).trans later)]

end

/-- Settles O42: the countdown and the address of the fetch vary independently of each other. -/
theorem stepRunsDecodedInstruction : Obligations.StepRunsDecodedInstruction := by
  refine fun s run => ⟨fun never pc => ?_, fun never pc => ?_, fun n later pc => ?_, fun n later pc => ?_⟩
  · rw [step_of_never_cancelled run never, fetch_other pc]
    rfl
  · rw [step_of_never_cancelled run never, fetch_kbsr pc]
    rfl
  · rw [step_of_countdown run later, fetch_other pc]
    rfl
  · rw [step_of_countdown run later, fetch_kbsr pc]
    rfl

/-! ### Waiting for a character (40_execution_loop.md R79, 44_trap.md R104) -/

theorem putBytes_nil (s : State) : putBytes s [] = s := by
  rw [putBytes, List.append_nil]
  rfl

/-- A TRAP that has only saved R7 and written to the output (R99). -/
theorem trapWrites_putBytes (s : State) (bs : List Byte) :
    TrapWrites s (putBytes (trapEntry s) bs) bs s.runState where
  link := readReg_writeReg_same s 7#3 s.pc
  regs _ h := readReg_trapEntry_other s h
  pc := rfl
  cond := rfl
  mem _ := rfl
  run := rfl
  host := rfl

theorem trapWrites_trapEntry (s : State) : TrapWrites s (trapEntry s) [] s.runState :=
  putBytes_nil (trapEntry s) ▸ trapWrites_putBytes s []

theorem exec_getc (s : State) : exec .getc s = withChar (trapEntry s) (fun c t => writeResult t 0#3 c) := rfl

theorem exec_inp (s : State) :
    exec .inp s = withChar (prompted s) (fun c t => writeResult (putByte t (lowByte c)) 0#3 c) := rfl

theorem withChar_stuck {s : State} (k : Word → State → State) (wait : hostWaits s.host = true)
    (never : s.host.cancelIn = none) : withChar s k = .fault (.waitingForCharacter s) := by
  rw [withChar, if_pos wait, waitForCharacter, never]

/-- Settles O30: both routines come to the wait, GETC right after the trap entry, IN after its prompt. -/
theorem waitsForCharacter : Obligations.WaitsForCharacter := fun s wait never =>
  ⟨⟨_, (exec_getc s).trans (withChar_stuck _ wait never), trapWrites_trapEntry s⟩,
    ⟨_, (exec_inp s).trans (withChar_stuck _ wait never), trapWrites_putBytes s Config.inPrompt⟩⟩

/-! ### The outcomes of a step (40_execution_loop.md R79, 60_exceptions.md R118) -/

/-- The answers that R79 and R118 leave to the instruction `i` in a RUNNING state with the host `h`. -/
inductive Answers (i : Instr) (h : HostSide) : Result → Prop
  | goesOn {t : State} (run : t.runState = .running) : Answers i h (.next t)
  | halts {t : State} (run : t.runState = .halted) (row : i = .halt) : Answers i h (.next t)
  | isCancelled {t : State} (run : t.runState = .cancelled) (later : h.cancelIn ≠ none) (wait : hostWaits h = true)
      (row : i = .getc ∨ i = .inp) : Answers i h (.next t)
  | faults {reason : FaultReason} {f : State} (run : f.runState = .faulted reason) :
      Answers i h (.fault (.fatal reason f))
  | waits {w : State} (run : w.runState = .running) (never : h.cancelIn = none) (wait : hostWaits h = true)
      (row : i = .getc ∨ i = .inp) : Answers i h (.fault (.waitingForCharacter w))

theorem answers_withChar {i : Instr} {h : HostSide} {s : State} {k : Word → State → State}
    (row : i = .getc ∨ i = .inp) (run : s.runState = .running) (countdown : s.host.cancelIn = h.cancelIn)
    (wait : hostWaits s.host = hostWaits h)
    (char : (k (nextChar s.host) (setHost s (afterChar s.host))).runState = .running) :
    Answers i h (withChar s k) := by
  rcases withChar_cases s k with ⟨w, c, e⟩ | ⟨w, c, e⟩ | ⟨_, e⟩ <;> rw [e]
  · exact .isCancelled rfl (countdown ▸ c) (wait ▸ w) row
  · exact .waits run (countdown ▸ c) (wait ▸ w) row
  · exact .goesOn char

theorem answers_putString {i : Instr} {h : HostSide} {s : State} (f : Word → List Byte)
    (run : s.runState = .running) : Answers i h (putString f s) := by
  rcases putString_cases f s with ⟨_, e⟩ | ⟨_, _, e⟩ <;> rw [e]
  · exact .goesOn run
  · exact .faults rfl

/-- Every row that a word decodes to is well formed, so TRAP under its base spelling does not arise. -/
theorem exec_answers {i : Instr} {s : State} (wf : i.wellFormed = true) (run : s.runState = .running) :
    Answers i s.host (exec i s) := by
  cases i
  case trap => nomatch wf
  case addReg | addImm | andReg | andImm | not | lea | st | str | jmp | ret | jsr | jsrr | out => exact .goesOn run
  case ld | ldr | sti => exact .goesOn ((afterRead_runState s _).trans run)
  case ldi => exact .goesOn ((afterRead_runState _ _).trans ((afterRead_runState s _).trans run))
  case br =>
    rw [exec_br]
    split <;> exact .goesOn run
  case rti | res | trapUndefined => exact .faults rfl
  case puts | putsp => exact answers_putString (s := trapEntry s) _ run
  case getc => exact exec_getc s ▸ answers_withChar (.inl rfl) run rfl rfl run
  case inp => exact exec_inp s ▸ answers_withChar (.inr rfl) run rfl rfl run
  case halt => exact .halts rfl rfl

theorem step_answers {s : State} (run : s.runState = .running) (pass : cancelsHere s.host = false) :
    Answers (decode (fetch s).1) (passBoundary (fetch s).2).host (step s) :=
  step_of_passes run pass ▸ exec_answers (wellFormed_decode _) ((fetch_runState s).trans run)

/-- Settles O45: the host cancels at the boundary, or the step is one of the answers of the instruction fetched. -/
theorem stepOutcomes : Obligations.StepOutcomes := by
  intro s run
  rcases step_cases s with ⟨stopped, _⟩ | ⟨_, cancel, e⟩ | ⟨_, pass, _⟩
  · exact absurd run stopped
  · exact .inl ⟨_, e, .inr (.inr ⟨rfl, .inl (eq_of_beq cancel)⟩)⟩
  · have countdown : (passBoundary (fetch s).2).host.cancelIn = none ↔ s.host.cancelIn = none := by
      rw [passBoundary_cancelIn_eq_none, fetch_cancelIn]
    have answer := step_answers run pass
    generalize step s = x at answer ⊢
    cases answer with
    | goesOn run' => exact .inl ⟨_, rfl, .inl run'⟩
    | halts run' row => exact .inl ⟨_, rfl, .inr (.inl ⟨run', row⟩)⟩
    | isCancelled run' later wait row =>
      exact .inl ⟨_, rfl, .inr (.inr ⟨run', .inr ⟨mt countdown.mpr later, wait, row⟩⟩)⟩
    | faults run' => exact .inr (.inl ⟨_, _, rfl, run'⟩)
    | waits run' never wait row => exact .inr (.inr ⟨_, rfl, run', countdown.mp never, wait, row⟩)

end Sys2Proof.Machine

/-!
SUPPORT. The rows of the operate instructions under their masks, the effect of a result written to a register, and the
statements of 41_operate.md.
-/

namespace Sys2Proof.Machine

/-! ### The words of ADD, AND and NOT (30_encoding.md R64) -/

/-- The mask 0xF020 of the ADD and AND rows covers the opcode and the immediate flag. -/
theorem fields_of_operate_match {w c : Word} (h : w &&& 0xF020#16 = c) :
    fieldOpcode w = c.extractLsb' 12 4 ∧ fieldImmediateFlag w = c.getLsbD 5 :=
  ⟨fieldOpcode_of_match (by decide) h, getLsbD_of_match (by decide) h⟩

theorem decode_of_add_match {w c : Word} (h : w &&& 0xF020#16 = c) (op : c.extractLsb' 12 4 = 0x1#4) :
    decode w = if c.getLsbD 5 then .addImm (fieldDR w) (fieldSR1 w) (fieldImm5 w)
      else .addReg (fieldDR w) (fieldSR1 w) (fieldSR2 w) := by
  obtain ⟨opcode, flag⟩ := fields_of_operate_match h
  rw [decode, opcode, op, flag]
  rfl

theorem decode_of_and_match {w c : Word} (h : w &&& 0xF020#16 = c) (op : c.extractLsb' 12 4 = 0x5#4) :
    decode w = if c.getLsbD 5 then .andImm (fieldDR w) (fieldSR1 w) (fieldImm5 w)
      else .andReg (fieldDR w) (fieldSR1 w) (fieldSR2 w) := by
  obtain ⟨opcode, flag⟩ := fields_of_operate_match h
  rw [decode, opcode, op, flag]
  rfl

theorem decode_of_opcode_not {w : Word} (h : fieldOpcode w = 0x9#4) : decode w = .not (fieldDR w) (fieldSR1 w) := by
  rw [decode, h]
  rfl

/-! ### A result written to a register (40_execution_loop.md R75, R76) -/

/-- The model tests the bits of the value; the source's words read its sign (R75). -/
theorem condOf_eq_signedFlag (v : Word) : condOf v = signedFlag v := by
  have zero : v = 0#16 ↔ v.toInt = 0 := BitVec.toInt_inj.symm
  have sign : v.getLsbD 15 = true ↔ v.toInt < 0 := by
    rw [← decide_eq_true_iff (p := v.toInt < 0), ← BitVec.msb_eq_toInt]
    rfl
  simp only [condOf, signedFlag, zero, sign]

theorem writesResult_writeResult (s : State) (dr : Reg) (v : Word) : WritesResult s (writeResult s dr v) dr v where
  result := readReg_writeResult_same s dr v
  flag := condOf_eq_signedFlag v
  regs _ h := readReg_writeResult_other s v h
  pc := rfl
  mem _ := rfl
  run := rfl
  host := rfl

/-- An instruction whose whole meaning is to write the result `v`. -/
theorem writesResult_of_exec {i : Instr} {s : State} {dr : Reg} {v : Word}
    (h : exec i s = .next (writeResult s dr v)) : ∃ t, exec i s = .next t ∧ WritesResult s t dr v :=
  ⟨_, h, writesResult_writeResult s dr v⟩

/-! ### What the operate instructions write (41_operate.md) -/

/-- R82 by number: `+` on words is the sum of their unsigned values, modulo 65536. -/
theorem exec_addReg (dr sr1 sr2 : Reg) (s : State) :
    exec (.addReg dr sr1 sr2) s =
      .next (writeResult s dr (BitVec.ofNat 16 ((readReg s sr1).toNat + (readReg s sr2).toNat))) := rfl

/-- R83 by number: the sign-extended immediate is its signed value modulo 65536, and so is the word it is added to. -/
theorem exec_addImm (dr sr1 : Reg) (imm : BitVec 5) (s : State) :
    exec (.addImm dr sr1 imm) s =
      .next (writeResult s dr (BitVec.ofInt 16 ((readReg s sr1).toInt + imm.toInt))) := by
  rw [BitVec.ofInt_add, BitVec.ofInt_toInt, ← signedWord, ← sext16_eq_signedWord]
  rfl

theorem exec_andReg (dr sr1 sr2 : Reg) (s : State) :
    exec (.andReg dr sr1 sr2) s = .next (writeResult s dr (readReg s sr1 &&& readReg s sr2)) := rfl

theorem exec_andImm (dr sr1 : Reg) (imm : BitVec 5) (s : State) :
    exec (.andImm dr sr1 imm) s = .next (writeResult s dr (readReg s sr1 &&& signedWord imm)) := by
  rw [← sext16_eq_signedWord]
  rfl

theorem exec_not (dr sr : Reg) (s : State) : exec (.not dr sr) s = .next (writeResult s dr (~~~(readReg s sr))) := rfl

/-! ### The statements -/

/-- Settles O7: the sources are read in the state before the write, so DR may be one of them. -/
theorem addRegisterForm : Obligations.AddRegisterForm :=
  ⟨fun _ h => decode_of_add_match h rfl, fun dr sr1 sr2 s => writesResult_of_exec (exec_addReg dr sr1 sr2 s)⟩

/-- Settles O8: the signed sum wraps as the sum of the words does. -/
theorem addImmediateForm : Obligations.AddImmediateForm :=
  ⟨fun _ h => decode_of_add_match h rfl, fun dr sr1 imm s => writesResult_of_exec (exec_addImm dr sr1 imm s)⟩

/-- Settles O9: bit 5 of the row's word is clear, and the result is the AND of the two registers. -/
theorem andRegisterForm : Obligations.AndRegisterForm :=
  ⟨fun _ h => decode_of_and_match h rfl, fun dr sr1 sr2 s => writesResult_of_exec (exec_andReg dr sr1 sr2 s)⟩

/-- Settles O10: bit 5 of the row's word is set, and the model's sign extension is the signed value of imm5. -/
theorem andImmediateForm : Obligations.AndImmediateForm :=
  ⟨fun _ h => decode_of_and_match h rfl, fun dr sr1 imm s => writesResult_of_exec (exec_andImm dr sr1 imm s)⟩

/-- Settles O11: the row's mask covers the opcode only, so bits 5:0 are free. -/
theorem notComplements : Obligations.NotComplements :=
  ⟨fun _ h => decode_of_opcode_not (fieldOpcode_of_match (by decide) h),
    fun dr sr s => writesResult_of_exec (exec_not dr sr s)⟩

end Sys2Proof.Machine

/-!
SUPPORT. The rows of the control instructions under their masks, the effect of a jump and of a call, and the statements
of 42_control.md, with RET and the trap routines' rows as second spellings of JMP and TRAP.
-/

namespace Sys2Proof.Machine

/-! ### The words of BR, JMP, RET, JSR and JSRR (30_encoding.md R63, R64) -/

theorem decode_of_opcode_br {w : Word} (h : fieldOpcode w = 0x0#4) :
    decode w = .br (w.getLsbD 11) (w.getLsbD 10) (w.getLsbD 9) (fieldOffset9 w) := by
  rw [decode, h]
  rfl

/-- The mask 0xF1C0 of the RET row covers the opcode and BaseR. -/
theorem decode_of_ret_match {w : Word} (h : w &&& 0xF1C0#16 = 0xC1C0#16) : decode w = .ret := by
  have base : fieldSR1 w = 7#3 := extractLsb'_of_match (by decide) h
  rw [decode_of_opcode_jmp (fieldOpcode_of_match (by decide) h), base]
  rfl

/-- The mask 0xF800 of the JSR and JSRR rows covers the opcode and the long flag. -/
theorem decode_of_call_match {w c : Word} (h : w &&& 0xF800#16 = c) (op : c.extractLsb' 12 4 = 0x4#4) :
    decode w = if c.getLsbD 11 then .jsr (fieldOffset11 w) else .jsrr (fieldSR1 w) := by
  have flag : fieldLongFlag w = c.getLsbD 11 := getLsbD_of_match (by decide) h
  rw [decode_of_opcode_jsr ((fieldOpcode_of_match (by decide) h).trans op), flag]

/-! ### A jump and a call -/

theorem jumps_setPc (s : State) (target : Word) : Jumps s (setPc s target) target where
  pc := rfl
  regs _ := rfl
  cond := rfl
  mem _ := rfl
  run := rfl
  host := rfl

/-- An instruction whose whole meaning is to write PC. -/
theorem jumps_of_exec {i : Instr} {s : State} {target : Word} (h : exec i s = .next (setPc s target)) :
    ∃ t, exec i s = .next t ∧ Jumps s t target :=
  ⟨_, h, jumps_setPc s target⟩

theorem readReg_linkR7 (s : State) (q : Reg) : readReg (linkR7 s) q = if q = 7#3 then s.pc else readReg s q :=
  readReg_writeReg s q 7#3 s.pc

theorem calls_setPc_linkR7 (s : State) (target : Word) : Calls s (setPc (linkR7 s) target) target where
  pc := rfl
  link := readReg_writeReg_same s 7#3 s.pc
  regs _ h := readReg_writeReg_other s s.pc h
  cond := rfl
  mem _ := rfl
  run := rfl
  host := rfl

/-- An instruction whose whole meaning is to link R7 and then write PC. -/
theorem calls_of_exec {i : Instr} {s : State} {target : Word} (h : exec i s = .next (setPc (linkR7 s) target)) :
    ∃ t, exec i s = .next t ∧ Calls s t target :=
  ⟨_, h, calls_setPc_linkR7 s target⟩

/-! ### Where the control instructions go (42_control.md) -/

/-- A branch not taken jumps to the PC that the fetch has left (R87). -/
theorem exec_br_setPc (n z p : Bool) (off : BitVec 9) (s : State) :
    exec (.br n z p off) s =
      .next (setPc s (if (n = true ∧ s.cond = .n) ∨ (z = true ∧ s.cond = .z) ∨ (p = true ∧ s.cond = .p)
        then s.pc + signedWord off else s.pc)) := by
  simp only [exec_br, branchTaken_iff]
  split
  · rw [pcRelative, sext16_eq_signedWord]
  · rfl

theorem exec_jmp (base : Reg) (s : State) : exec (.jmp base) s = .next (setPc s (readReg s base)) := rfl

/-- RET is JMP with BaseR = R7 (R89). -/
theorem exec_ret (s : State) : exec .ret s = exec (.jmp 7#3) s := rfl

/-- The row that names a JMP word means JMP, R7 included (R88, R89). -/
theorem exec_decodeJmp (base : Reg) (s : State) : exec (decodeJmp base) s = exec (.jmp base) s := by
  unfold decodeJmp
  split
  · next r7 => rw [r7, exec_ret]
  · rfl

theorem exec_jsr (off : BitVec 11) (s : State) :
    exec (.jsr off) s = .next (setPc (linkR7 s) (s.pc + signedWord off)) := by
  rw [← sext16_eq_signedWord]
  rfl

/-- R7 holds the return address when BaseR is read, so JSRR R7 goes there (R91, D18). -/
theorem exec_jsrr (base : Reg) (s : State) :
    exec (.jsrr base) s = .next (setPc (linkR7 s) (if base = 7#3 then s.pc else readReg s base)) := by
  rw [← readReg_linkR7]
  rfl

/-! ### The statements -/

/-- Settles O6: RET is JMP R7, and the dispatcher of TRAP gives each vector the meaning of the vector's own row. -/
theorem specialisedRowsRefineBaseRows : Obligations.SpecialisedRowsRefineBaseRows :=
  ⟨exec_decodeJmp, fun v s => (exec_trap v s).symm⟩

/-- Settles O12: the mask bit of the flag that COND holds decides between the target and the PC as it is. -/
theorem branchOnCondition : Obligations.BranchOnCondition :=
  ⟨fun _ h => decode_of_opcode_br (fieldOpcode_of_match (by decide) h),
    fun n z p off s => jumps_of_exec (exec_br_setPc n z p off s)⟩

/-- Settles O14: a JMP word decodes to JMP or to RET, and both jump to the base register. -/
theorem jumpThroughRegister : Obligations.JumpThroughRegister := by
  refine ⟨fun w h s => ?_, fun _ => decode_of_ret_match, fun base s => jumps_of_exec (exec_jmp base s),
    fun s => jumps_of_exec ((exec_ret s).trans (exec_jmp 7#3 s))⟩
  rw [decode_of_opcode_jmp (fieldOpcode_of_match (by decide) h)]
  exact exec_decodeJmp (fieldSR1 w) s

/-- Settles O15: bit 11 of the row's word is set, and the offset counts from the PC that is also linked. -/
theorem callRelative : Obligations.CallRelative :=
  ⟨fun _ h => decode_of_call_match h rfl, fun off s => calls_of_exec (exec_jsr off s)⟩

/-- Settles O16: bit 11 of the row's word is clear, and BaseR is read after the link. -/
theorem callThroughRegister : Obligations.CallThroughRegister :=
  ⟨fun _ h => decode_of_call_match h rfl, fun base s => calls_of_exec (exec_jsrr base s)⟩

end Sys2Proof.Machine

/-!
SUPPORT. The rows of the loads, the stores and LEA under their masks, the effect of a load and of a store, and the
statements of 43_load_store.md.
-/

namespace Sys2Proof.Machine

/-! ### The words of LD, LDI, LDR, ST, STI, STR and LEA (30_encoding.md R55) -/

section
variable {w : Word}

theorem decode_of_opcode_ld (h : fieldOpcode w = 0x2#4) : decode w = .ld (fieldDR w) (fieldOffset9 w) := by
  rw [decode, h]
  rfl

theorem decode_of_opcode_ldi (h : fieldOpcode w = 0xA#4) : decode w = .ldi (fieldDR w) (fieldOffset9 w) := by
  rw [decode, h]
  rfl

theorem decode_of_opcode_ldr (h : fieldOpcode w = 0x6#4) :
    decode w = .ldr (fieldDR w) (fieldSR1 w) (fieldOffset6 w) := by
  rw [decode, h]
  rfl

theorem decode_of_opcode_st (h : fieldOpcode w = 0x3#4) : decode w = .st (fieldDR w) (fieldOffset9 w) := by
  rw [decode, h]
  rfl

theorem decode_of_opcode_sti (h : fieldOpcode w = 0xB#4) : decode w = .sti (fieldDR w) (fieldOffset9 w) := by
  rw [decode, h]
  rfl

theorem decode_of_opcode_str (h : fieldOpcode w = 0x7#4) :
    decode w = .str (fieldDR w) (fieldSR1 w) (fieldOffset6 w) := by
  rw [decode, h]
  rfl

theorem decode_of_opcode_lea (h : fieldOpcode w = 0xE#4) : decode w = .lea (fieldDR w) (fieldOffset9 w) := by
  rw [decode, h]
  rfl

end

/-! ### The two addressing modes, by the signed value of the offset (R12, R59, R60) -/

theorem pcRelative_eq_add_signedWord {n : Nat} (s : State) (off : BitVec n) :
    pcRelative s off = s.pc + signedWord off := by
  rw [pcRelative, sext16_eq_signedWord]

theorem baseOffset_eq_add_signedWord (s : State) (base : Reg) (off : BitVec 6) :
    baseOffset s base off = readReg s base + signedWord off := by
  rw [baseOffset, sext16_eq_signedWord]

/-! ### A load and a store, possibly after a pointer read that left the state `u` -/

/-- An instruction whose whole meaning is to load the word at `ea`. -/
theorem writesResult_of_exec_load {i : Instr} {s u : State} {dr : Reg} {ea : Word}
    (h : exec i s = .next (loadResult u dr ea)) :
    ∃ t, exec i s = .next t ∧ WritesResult (memRead u ea).2 t dr (memRead u ea).1 :=
  ⟨_, h, writesResult_writeResult (memRead u ea).2 dr (memRead u ea).1⟩

/-- An instruction whose whole meaning is to store `v` at `a`. -/
theorem storesCell_of_exec {i : Instr} {s u : State} {a v : Word} (h : exec i s = .next (memWrite u a v)) :
    ∃ t, exec i s = .next t ∧ StoresCell u t a v :=
  ⟨_, h, memWrite_storesCell u a v⟩

/-! ### What the loads, the stores and LEA do (43_load_store.md) -/

theorem exec_ld (dr : Reg) (off : BitVec 9) (s : State) :
    exec (.ld dr off) s = .next (loadResult s dr (s.pc + signedWord off)) := by
  rw [exec, execLd, pcRelative_eq_add_signedWord]

theorem exec_ldi_of_memRead {s u : State} {off : BitVec 9} {ea : Word} (dr : Reg)
    (pointer : memRead s (s.pc + signedWord off) = (ea, u)) :
    exec (.ldi dr off) s = .next (loadResult u dr ea) := by
  rw [exec, execLdi, pcRelative_eq_add_signedWord, pointer]

theorem exec_ldr (dr base : Reg) (off : BitVec 6) (s : State) :
    exec (.ldr dr base off) s = .next (loadResult s dr (readReg s base + signedWord off)) := by
  rw [exec, execLdr, baseOffset_eq_add_signedWord]

theorem exec_st (sr : Reg) (off : BitVec 9) (s : State) :
    exec (.st sr off) s = .next (memWrite s (s.pc + signedWord off) (readReg s sr)) := by
  rw [exec, execSt, pcRelative_eq_add_signedWord]

/-- STI reads SR after the pointer, and the pointer read keeps every register (R96). -/
theorem exec_sti_of_memRead {s u : State} {off : BitVec 9} {ea : Word} (sr : Reg)
    (pointer : memRead s (s.pc + signedWord off) = (ea, u)) :
    exec (.sti sr off) s = .next (memWrite u ea (readReg s sr)) := by
  have kept : readReg u sr = readReg s sr := by
    rw [← readReg_afterRead s (s.pc + signedWord off) sr, ← memRead_snd, pointer]
  rw [exec, execSti, pcRelative_eq_add_signedWord, pointer, kept]

theorem exec_str (sr base : Reg) (off : BitVec 6) (s : State) :
    exec (.str sr base off) s = .next (memWrite s (readReg s base + signedWord off) (readReg s sr)) := by
  rw [exec, execStr, baseOffset_eq_add_signedWord]

theorem exec_lea (dr : Reg) (off : BitVec 9) (s : State) :
    exec (.lea dr off) s = .next (writeResult s dr (s.pc + signedWord off)) := by
  rw [exec, execLea, pcRelative_eq_add_signedWord]

/-! ### The statements -/

/-- Settles O17: LD is a load from the state itself, in which the address is taken. -/
theorem loadPcRelative : Obligations.LoadPcRelative :=
  ⟨fun _ h => decode_of_opcode_ld (fieldOpcode_of_match (by decide) h),
    fun dr off s => writesResult_of_exec_load (exec_ld dr off s)⟩

/-- Settles O18: LDI is a load from the state that the pointer read left. -/
theorem loadIndirect : Obligations.LoadIndirect := by
  refine ⟨fun w h => decode_of_opcode_ldi (fieldOpcode_of_match (by decide) h), ?_⟩
  intro dr off s s1 s2 ea v pointer data
  have loads := writesResult_of_exec_load (exec_ldi_of_memRead dr pointer)
  rwa [data] at loads

/-- Settles O19: the address is an argument of the load, so DR may be its base register. -/
theorem loadBaseOffset : Obligations.LoadBaseOffset :=
  ⟨fun _ h => decode_of_opcode_ldr (fieldOpcode_of_match (by decide) h),
    fun dr base off s => writesResult_of_exec_load (exec_ldr dr base off s)⟩

/-- Settles O20: a store is plain at every address, those of the keyboard included. -/
theorem storePcRelative : Obligations.StorePcRelative :=
  ⟨fun _ h => decode_of_opcode_st (fieldOpcode_of_match (by decide) h),
    fun sr off s => storesCell_of_exec (exec_st sr off s)⟩

/-- Settles O21: STI is a store in the state that the pointer read left, of a register which that read kept. -/
theorem storeIndirect : Obligations.StoreIndirect :=
  ⟨fun _ h => decode_of_opcode_sti (fieldOpcode_of_match (by decide) h),
    fun sr _ _ _ _ pointer => storesCell_of_exec (exec_sti_of_memRead sr pointer)⟩

/-- Settles O22: base and source are both read in the state before the store, so SR may be BaseR. -/
theorem storeBaseOffset : Obligations.StoreBaseOffset :=
  ⟨fun _ h => decode_of_opcode_str (fieldOpcode_of_match (by decide) h),
    fun sr base off s => storesCell_of_exec (exec_str sr base off s)⟩

/-- Settles O23: the result is the address itself, written with no read of memory before it. -/
theorem loadEffectiveAddress : Obligations.LoadEffectiveAddress :=
  ⟨fun _ h => decode_of_opcode_lea (fieldOpcode_of_match (by decide) h),
    fun dr off s => writesResult_of_exec (exec_lea dr off s)⟩

end Sys2Proof.Machine

/-!
SUPPORT. The rows of TRAP and its routines, the scan of a string and where it ends, the effect of each routine on the
state, and the statements of 44_trap.md.
-/

namespace Sys2Proof.Machine

/-! ### The words of TRAP and its routines (30_encoding.md R62, 44_trap.md R100) -/

theorem decode_of_opcode_trap {w : Word} (h : fieldOpcode w = 0xF#4) : decode w = decodeTrap (fieldTrapvect8 w) := by
  rw [decode, h]
  rfl

/-- The mask 0xF0FF of the routines' rows covers the opcode and the vector. -/
theorem decode_of_routine_match {w c : Word} (h : w &&& 0xF0FF#16 = c) (op : c.extractLsb' 12 4 = 0xF#4) :
    decode w = decodeTrap (c.extractLsb' 0 8) := by
  have vector : fieldTrapvect8 w = c.extractLsb' 0 8 := extractLsb'_of_match (by decide) h
  rw [decode_of_opcode_trap ((fieldOpcode_of_match (by decide) h).trans op), vector]

theorem vectorDefined_eq_false {v : BitVec 8} (h : v < 0x20#8 ∨ 0x25#8 < v) : vectorDefined v = false := by
  rw [vectorDefined, decide_eq_false_iff_not]
  bv_omega

theorem vector_cases {v : BitVec 8} (low : 0x20#8 ≤ v) (high : v ≤ 0x25#8) :
    v = 0x20#8 ∨ v = 0x21#8 ∨ v = 0x22#8 ∨ v = 0x23#8 ∨ v = 0x24#8 ∨ v = 0x25#8 := by
  bv_omega

/-! ### The cells that a scan reads (44_trap.md R103, R105, R108) -/

theorem scanRead_eq_ok {m : Memory} {a : Nat} {w : Word} :
    scanRead m a = .ok w ↔ a ≤ 0xFFFF ∧ a ≠ 0xFE00 ∧ memLookup m a = w := by
  unfold scanRead
  split_ifs <;> simp [*]
  omega

theorem scanRead_eq_error {m : Memory} {a b : Nat} :
    scanRead m a = .error b ↔ b = a ∧ (a = 0xFE00 ∨ 0xFFFF < a) := by
  unfold scanRead
  split_ifs <;> simp [*, eq_comm]

/-- What the read that ends a scan answers: a zero cell, or the bad address. -/
def scanEnd : Option Nat → Except Nat Word
  | none => .ok 0x0000#16
  | some bad => .error bad

theorem scanEnd_injective {r r' : Option Nat} (h : scanEnd r = scanEnd r') : r = r' := by
  cases r <;> cases r' <;> cases h <;> rfl

theorem ok_ne_scanEnd {w : Word} (nonzero : w ≠ 0x0000#16) (r : Option Nat) : .ok w ≠ scanEnd r := by
  cases r with
  | none => exact fun h => nonzero (Except.ok.inj h)
  | some bad => exact nofun

/-- A scan from `a` reads the non-zero words `ws` and then meets the end `r`. -/
structure ScansTo (m : Memory) (a : Nat) (ws : List Word) (r : Option Nat) : Prop where
  words : ∀ i, (h : i < ws.length) → scanRead m (a + i) = .ok ws[i] ∧ ws[i] ≠ 0x0000#16
  ends : scanRead m (a + ws.length) = scanEnd r

section
variable {m : Memory} {a : Nat} {ws ws' : List Word} {r r' : Option Nat}

theorem ScansTo.nil (first : scanRead m a = scanEnd r) : ScansTo m a [] r := ⟨nofun, first⟩

theorem ScansTo.cons {w : Word} (first : scanRead m a = .ok w) (nonzero : w ≠ 0x0000#16)
    (rest : ScansTo m (a + 1) ws r) : ScansTo m a (w :: ws) r where
  words
    | 0, _ => ⟨first, nonzero⟩
    | i + 1, h => Nat.add_right_comm a 1 i ▸ rest.words i (Nat.lt_of_succ_lt_succ h)
  ends := Nat.add_right_comm a 1 ws.length ▸ rest.ends

/-- No word that a scan reads ends it. -/
theorem ScansTo.length_le (h : ScansTo m a ws r) (h' : ScansTo m a ws' r') : ws'.length ≤ ws.length := by
  by_contra longer
  obtain ⟨read, nonzero⟩ := h'.words ws.length (Nat.lt_of_not_le longer)
  exact ok_ne_scanEnd nonzero r (read.symm.trans h.ends)

/-- The memory decides what a scan reads and where it ends. -/
theorem ScansTo.unique (h : ScansTo m a ws r) (h' : ScansTo m a ws' r') : (ws, r) = (ws', r') := by
  have length : ws.length = ws'.length := Nat.le_antisymm (h'.length_le h) (h.length_le h')
  have words : ws = ws' := List.ext_getElem length fun i hi hi' =>
    Except.ok.inj ((h.words i hi).1.symm.trans (h'.words i hi').1)
  subst words
  rw [scanEnd_injective (h.ends.symm.trans h'.ends)]

end

/-- The recursion of the scan keeps to the cells above it: its fuel is what is left of memory. -/
theorem scansTo_scanFrom (m : Memory) {left : Nat} (h : left ≤ Config.memoryEnd) :
    ScansTo m (Config.memoryEnd - left) (scanFrom m left).1 (scanFrom m left).2 := by
  induction left with
  | zero => exact .nil rfl
  | succ left ih =>
    have next : Config.memoryEnd - left = Config.memoryEnd - (left + 1) + 1 := by omega
    rw [scanFrom]
    split
    · next bad first =>
      obtain ⟨rfl, _⟩ := scanRead_eq_error.mp first
      exact .nil first
    · next w first =>
      split
      · next zero =>
        subst zero
        exact .nil first
      · next nonzero => exact .cons first nonzero (next ▸ ih (Nat.le_of_succ_le h))

theorem scansTo_scanString (s : State) (a : Word) :
    ScansTo s.mem a.toNat (scanString s a).1 (scanString s a).2 := by
  have start : Config.memoryEnd - (Config.memoryEnd - a.toNat) = a.toNat := Nat.sub_sub_self a.isLt.le
  have scan := scansTo_scanFrom s.mem (Nat.sub_le Config.memoryEnd a.toNat)
  rwa [start] at scan

theorem scanString_eq_iff {s : State} {a : Word} {ws : List Word} {r : Option Nat} :
    scanString s a = (ws, r) ↔ ScansTo s.mem a.toNat ws r := by
  refine ⟨fun h => ?_, (scansTo_scanString s a).unique⟩
  have scan := scansTo_scanString s a
  rwa [h] at scan

/-! ### A scan that ends at a zero cell is a string, and one that does not is a bad string -/

theorem cell_eq_memLookup (s : State) {n : Nat} (h : n ≤ 0xFFFF) : cell s (BitVec.ofNat 16 n) = memLookup s.mem n := by
  rw [cell, BitVec.toNat_ofNat, Nat.mod_eq_of_lt (Nat.lt_succ_of_le h)]

/-- A cell that a scan may read, by its content. -/
theorem scanRead_eq_ok_iff_cell {s : State} {n : Nat} {w : Word} :
    scanRead s.mem n = .ok w ↔ n ≤ 0xFFFF ∧ n ≠ 0xFE00 ∧ cell s (BitVec.ofNat 16 n) = w := by
  rw [scanRead_eq_ok]
  exact and_congr_right fun h => by rw [cell_eq_memLookup s h]

theorem cellsAt_iff {s : State} {a : Word} {ws : List Word} :
    CellsAt s a ws ↔ ∀ i, (h : i < ws.length) → scanRead s.mem (a.toNat + i) = .ok ws[i] ∧ ws[i] ≠ 0x0000#16 := by
  refine forall₂_congr fun i h => ?_
  rw [scanRead_eq_ok_iff_cell]
  tauto

theorem stringAt_iff {s : State} {a : Word} {ws : List Word} :
    StringAt s a ws ↔ scanString s a = (ws, none) := by
  rw [scanString_eq_iff, StringAt, cellsAt_iff, ← scanRead_eq_ok_iff_cell]
  exact ⟨fun ⟨words, ends⟩ => ⟨words, ends⟩, fun ⟨words, ends⟩ => ⟨words, ends⟩⟩

/-- Before the end of a scan every address lies in memory. -/
theorem CellsAt.end_le {s : State} {a : Word} {ws : List Word} (h : CellsAt s a ws) :
    a.toNat + ws.length ≤ 0x10000 := by
  rcases Nat.eq_zero_or_pos ws.length with empty | nonempty
  · rw [empty]
    exact a.isLt.le
  · obtain ⟨inside, _⟩ := h (ws.length - 1) (Nat.sub_one_lt_of_lt nonempty)
    omega

theorem badStringAt_iff {s : State} {a : Word} {ws : List Word} {bad : Nat} :
    BadStringAt s a ws bad ↔ scanString s a = (ws, some bad) := by
  rw [scanString_eq_iff]
  constructor
  · rintro ⟨cells, atEnd, which⟩
    exact ⟨cellsAt_iff.mp cells, scanRead_eq_error.mpr ⟨atEnd, by omega⟩⟩
  · rintro ⟨words, ends⟩
    have cells : CellsAt s a ws := cellsAt_iff.mpr words
    have inside := cells.end_le
    obtain ⟨atEnd, which⟩ := scanRead_eq_error.mp ends
    exact ⟨cells, atEnd, by omega⟩

/-! ### The bytes of a scanned cell (44_trap.md R103, R105) -/

theorem lowByte_eq_setWidth (w : Word) : lowByte w = w.setWidth 8 := rfl

theorem highByte_eq_ofNat (w : Word) : highByte w = BitVec.ofNat 8 (w.toNat / 256) := by
  rw [highByte, BitVec.extractLsb', Nat.shiftRight_eq_div_pow]

theorem highByte_eq_zero_iff (w : Word) : highByte w = 0x00#8 ↔ w.toNat / 256 = 0 := by
  rw [highByte_eq_ofNat]
  bv_omega

theorem packedBytes_eq (w : Word) :
    packedBytes w = w.setWidth 8 :: (if w.toNat / 256 = 0 then [] else [BitVec.ofNat 8 (w.toNat / 256)]) := by
  rw [packedBytes, ← highByte_eq_ofNat]
  simp only [← highByte_eq_zero_iff]
  split <;> rfl

theorem flatMap_lowByte (ws : List Word) :
    ws.flatMap (fun w => [lowByte w]) = ws.map (fun w => w.setWidth 8) :=
  List.map_eq_flatMap.symm

theorem flatMap_packedBytes (ws : List Word) :
    ws.flatMap packedBytes = ws.flatMap (fun w => w.setWidth 8 ::
      (if w.toNat / 256 = 0 then [] else [BitVec.ofNat 8 (w.toNat / 256)])) :=
  congrArg ws.flatMap (funext packedBytes_eq)

/-! ### The effect of a routine on the state (44_trap.md R99) -/

/-- A TRAP that has saved R7, written to the output and changed the run state. -/
theorem trapWrites_setRunState (s : State) (bs : List Byte) (r : RunState) :
    TrapWrites s (setRunState (putBytes (trapEntry s) bs) r) bs r :=
  { trapWrites_putBytes s bs with run := rfl }

theorem readReg_zero_trapEntry (s : State) : readReg (trapEntry s) 0#3 = readReg s 0#3 :=
  readReg_trapEntry_other s (by decide)

/-- The state after a TRAP that has saved R7, taken the host's next character, written to the output and put the
character into R0 (R101, R104). -/
def charRead (s : State) (bs : List Byte) : State :=
  writeResult (putBytes (setHost (trapEntry s) (afterChar s.host)) bs) 0#3 (nextChar s.host)

theorem trapReads_charRead (s : State) (bs : List Byte) : TrapReads s (charRead s bs) (nextChar s.host) bs where
  char := readReg_writeResult_same _ 0#3 _
  flag := condOf_eq_signedFlag _
  link := (readReg_writeResult_other _ _ (by decide)).trans (readReg_writeReg_same s 7#3 s.pc)
  regs _ h0 h7 := (readReg_writeResult_other _ _ h0).trans (readReg_trapEntry_other s h7)
  pc := rfl
  mem _ := rfl
  run := rfl
  host := rfl

theorem withChar_supplied {s : State} (k : Word → State → State) (supplied : hostWaits s.host = false) :
    withChar s k = .next (k (nextChar s.host) (setHost s (afterChar s.host))) := by
  rw [withChar, supplied]
  rfl

section
variable {s : State}

theorem exec_getc_supplied (supplied : hostWaits s.host = false) : exec .getc s = .next (charRead s []) := by
  rw [exec_getc, withChar_supplied (s := trapEntry s) _ supplied, charRead, putBytes_nil]
  rfl

/-- The prompt and the echo, with nothing between them but the character taken. -/
theorem exec_inp_supplied (supplied : hostWaits s.host = false) :
    exec .inp s = .next (charRead s (Config.inPrompt ++ [lowByte (nextChar s.host)])) := by
  rw [exec_inp, withChar_supplied (s := prompted s) _ supplied, charRead, ← putBytes_putBytes]
  rfl

end

theorem exec_out (s : State) :
    exec .out s = .next (putBytes (trapEntry s) [(readReg s 0#3).setWidth 8]) := by
  rw [← readReg_zero_trapEntry]
  rfl

theorem exec_halt (s : State) :
    exec .halt s = .next (setRunState (putBytes (trapEntry s) Config.haltMessage) .halted) := rfl

theorem exec_trapUndefined (v : BitVec 8) (s : State) :
    exec (.trapUndefined v) s = raiseFault (.undefinedTrapVector v) (trapEntry s) := rfl

/-- TRAP with a vector that has no routine means the row of the undefined vector (R107). -/
theorem exec_trap_of_undefined {v : BitVec 8} (h : v < 0x20#8 ∨ 0x25#8 < v) (s : State) :
    exec (.trap v) s = exec (.trapUndefined v) s := by
  rw [exec_trap, decodeTrap_of_undefined (vectorDefined_eq_false h)]

/-! ### The string routines (44_trap.md R103, R105, R108) -/

theorem exec_puts (s : State) : exec .puts s = putString (fun w => [lowByte w]) (trapEntry s) := rfl

theorem exec_putsp (s : State) : exec .putsp s = putString packedBytes (trapEntry s) := rfl

/-- PUTS and PUTSP, under either spelling, differ in the bytes of a cell only. -/
theorem exec_string_routine {i : Instr} (h : i = .puts ∨ i = .putsp ∨ i = .trap 0x22#8 ∨ i = .trap 0x24#8)
    (s : State) : ∃ f, exec i s = putString f (trapEntry s) := by
  rcases h with rfl | rfl | rfl | rfl <;> exact ⟨_, rfl⟩

section
variable {s : State} {ws : List Word} {bad : Nat}

theorem putString_of_stringAt (f : Word → List Byte) (h : StringAt s (readReg s 0#3) ws) :
    putString f (trapEntry s) = .next (putBytes (trapEntry s) (ws.flatMap f)) := by
  have scan : scanString (trapEntry s) (readReg (trapEntry s) 0#3) = (ws, none) := by
    rw [readReg_zero_trapEntry]
    exact stringAt_iff.mp h
  rw [putString, scan]

theorem putString_of_badStringAt (f : Word → List Byte) (h : BadStringAt s (readReg s 0#3) ws bad) :
    putString f (trapEntry s) =
      raiseFault (.stringScanOutOfRange bad) (putBytes (trapEntry s) (ws.flatMap f)) := by
  have scan : scanString (trapEntry s) (readReg (trapEntry s) 0#3) = (ws, some bad) := by
    rw [readReg_zero_trapEntry]
    exact badStringAt_iff.mp h
  rw [putString, scan]

end

/-- Every scan comes to its end. -/
theorem stringAt_or_badStringAt (s : State) (a : Word) :
    (∃ ws, StringAt s a ws) ∨ ∃ ws bad, BadStringAt s a ws bad := by
  match h : scanString s a with
  | (ws, none) => exact .inl ⟨ws, stringAt_iff.mpr h⟩
  | (ws, some bad) => exact .inr ⟨ws, bad, badStringAt_iff.mpr h⟩

section
variable {s : State} {f : Word → List Byte}

theorem putString_next_iff :
    (∃ t, putString f (trapEntry s) = .next t) ↔ ∃ ws, StringAt s (readReg s 0#3) ws := by
  constructor
  · rintro ⟨t, e⟩
    rcases stringAt_or_badStringAt s (readReg s 0#3) with string | ⟨_, _, h⟩
    · exact string
    · nomatch (putString_of_badStringAt f h).symm.trans e
  · rintro ⟨_, h⟩
    exact ⟨_, putString_of_stringAt f h⟩

theorem putString_fault_iff (bad : Nat) :
    (∃ t, putString f (trapEntry s) = .fault (.fatal (.stringScanOutOfRange bad) t)) ↔
      ∃ ws, BadStringAt s (readReg s 0#3) ws bad := by
  constructor
  · rintro ⟨t, e⟩
    rcases stringAt_or_badStringAt s (readReg s 0#3) with ⟨_, h⟩ | ⟨ws, bad', h⟩
    · nomatch (putString_of_stringAt f h).symm.trans e
    · cases (putString_of_badStringAt f h).symm.trans e
      exact ⟨ws, h⟩
  · rintro ⟨_, h⟩
    exact ⟨_, putString_of_badStringAt f h⟩

end

/-! ### A TRAP that completes (44_trap.md R99, R110) -/

/-- What every TRAP with the vector `v` of a routine does where it completes. -/
def CompletesTrap (v : BitVec 8) (s t : State) : Prop :=
  readReg t 7#3 = s.pc ∧ t.pc = s.pc ∧
    (∀ a, cell t a = cell s a) ∧ (∀ r, r ≠ 7#3 → r ≠ 0#3 → readReg t r = readReg s r) ∧
    (v ≠ 0x20#8 → v ≠ 0x23#8 → readReg t 0#3 = readReg s 0#3 ∧ t.cond = s.cond) ∧
    t.runState = if v = 0x25#8 then .halted else s.runState

theorem TrapWrites.completes {v : BitVec 8} {s t : State} {bs : List Byte}
    (h : TrapWrites s t bs (if v = 0x25#8 then .halted else s.runState)) : CompletesTrap v s t :=
  ⟨h.link, h.pc, h.mem, fun r h7 _ => h.regs r h7, fun _ _ => ⟨h.regs 0#3 (by decide), h.cond⟩, h.run⟩

theorem TrapReads.completes {v : BitVec 8} {s t : State} {c : Word} {bs : List Byte} (h : TrapReads s t c bs)
    (reads : v = 0x20#8 ∨ v = 0x23#8) : CompletesTrap v s t := by
  refine ⟨h.link, h.pc, h.mem, fun r h7 h0 => h.regs r h0 h7, fun h20 h23 => absurd reads (not_or.mpr ⟨h20, h23⟩), ?_⟩
  rw [h.run, if_neg (by rcases reads with rfl | rfl <;> decide)]

/-! ### The statements -/

/-- Settles O24: a TRAP word names the vector's own row, which means what TRAP means. -/
theorem trapDispatchByVector : Obligations.TrapDispatchByVector := by
  refine ⟨fun w h s => ?_, fun s =>
    ⟨rfl, rfl, rfl, rfl, rfl, rfl, fun v undefined => exec_trap_of_undefined undefined s⟩⟩
  rw [decode_of_opcode_trap (fieldOpcode_of_match (by decide) h)]
  exact (exec_trap _ s).symm

/-- Settles O26: the character is read with nothing written out. -/
theorem getcReadsCharacter : Obligations.GetcReadsCharacter :=
  ⟨fun _ h => decode_of_routine_match h rfl,
    fun s supplied => ⟨_, exec_getc_supplied supplied, trapReads_charRead s _⟩⟩

/-- Settles O27: OUT writes the low byte of R0, which the trap entry has kept. -/
theorem outWritesLowByte : Obligations.OutWritesLowByte :=
  ⟨fun _ h => decode_of_routine_match h rfl, fun s => ⟨_, exec_out s, trapWrites_putBytes s _⟩⟩

/-- Settles O28: the scan of a string ends at its zero cell with the words before it. -/
theorem putsWritesString : Obligations.PutsWritesString := by
  refine ⟨fun _ h => decode_of_routine_match h rfl, fun s ws string =>
    ⟨_, (exec_puts s).trans (putString_of_stringAt _ string), ?_⟩⟩
  rw [flatMap_lowByte]
  exact trapWrites_putBytes s _

/-- Settles O29: the character is read with the prompt and its echo written out. -/
theorem inPromptsReadsEchoes : Obligations.InPromptsReadsEchoes :=
  ⟨fun _ h => decode_of_routine_match h rfl,
    fun s supplied => ⟨_, exec_inp_supplied supplied, trapReads_charRead s _⟩⟩

/-- Settles O31: as for PUTS, with the two bytes that a cell packs. -/
theorem putspWritesPackedString : Obligations.PutspWritesPackedString := by
  refine ⟨fun _ h => decode_of_routine_match h rfl, fun s ws string =>
    ⟨_, (exec_putsp s).trans (putString_of_stringAt _ string), ?_⟩⟩
  rw [flatMap_packedBytes]
  exact trapWrites_putBytes s _

/-- Settles O32: both routines write the words of a bad string, then fault at its end. -/
theorem stringScanFaults : Obligations.StringScanFaults := by
  refine fun s ws bad h => ⟨⟨_, (exec_puts s).trans (putString_of_badStringAt _ h), ?_⟩,
    ⟨_, (exec_putsp s).trans (putString_of_badStringAt _ h), ?_⟩⟩
  · rw [flatMap_lowByte]
    exact trapWrites_setRunState s _ _
  · rw [flatMap_packedBytes]
    exact trapWrites_setRunState s _ _

/-- Settles O33: the cells from x[0] on are a string or a bad string, and each decides the answer. -/
theorem everyScanEnds : Obligations.EveryScanEnds := by
  intro i s routine
  obtain ⟨f, e⟩ := exec_string_routine routine s
  rw [e]
  refine ⟨?_, putString_next_iff, putString_fault_iff⟩
  rcases stringAt_or_badStringAt s (readReg s 0#3) with ⟨_, h⟩ | ⟨_, bad, h⟩
  · exact .inl ⟨_, putString_of_stringAt f h⟩
  · have ⟨_, _, which⟩ := h
    exact .inr ⟨bad, _, putString_of_badStringAt f h, which⟩

/-- Settles O34: HALT writes its message and sets the one run state that counts as success. -/
theorem haltStopsRun : Obligations.HaltStopsRun :=
  ⟨fun _ h => decode_of_routine_match h rfl,
    fun s => ⟨_, exec_halt s, trapWrites_setRunState s _ _, rfl, rfl⟩⟩

/-- Settles O35: the fault is raised right after the trap entry. -/
theorem undefinedVectorFaults : Obligations.UndefinedVectorFaults := fun v s undefined =>
  ⟨_, exec_trapUndefined v s, exec_trap_of_undefined undefined s,
    putBytes_nil (trapEntry s) ▸ trapWrites_setRunState s [] _⟩

/-- Settles O25: each of the six routines writes to the output only, or reads a character. -/
theorem trapCompletes : Obligations.TrapCompletes := by
  intro v s low high supplied string
  suffices ∃ t, exec (decodeTrap v) s = .next t ∧ CompletesTrap v s t from exec_trap v s ▸ this
  rcases vector_cases low high with rfl | rfl | rfl | rfl | rfl | rfl
  · exact ⟨_, exec_getc_supplied (supplied (.inl rfl)), (trapReads_charRead s _).completes (.inl rfl)⟩
  · exact ⟨_, exec_out s, (trapWrites_putBytes s _).completes⟩
  · obtain ⟨_, h⟩ := string (.inl rfl)
    exact ⟨_, (exec_puts s).trans (putString_of_stringAt _ h), (trapWrites_putBytes s _).completes⟩
  · exact ⟨_, exec_inp_supplied (supplied (.inr rfl)), (trapReads_charRead s _).completes (.inr rfl)⟩
  · obtain ⟨_, h⟩ := string (.inr rfl)
    exact ⟨_, (exec_putsp s).trans (putString_of_stringAt _ h), (trapWrites_putBytes s _).completes⟩
  · exact ⟨_, exec_halt s, (trapWrites_setRunState s _ _).completes⟩

end Sys2Proof.Machine

/-!
SUPPORT. The rows of RTI and RES under their masks, the fault that each raises, and the statement of 45_reserved.md.
-/

namespace Sys2Proof.Machine

/-! ### The words of RTI and RES (30_encoding.md R55) -/

theorem decode_of_opcode_rti {w : Word} (h : fieldOpcode w = 0x8#4) : decode w = .rti := by
  rw [decode, h]
  rfl

theorem decode_of_opcode_res {w : Word} (h : fieldOpcode w = 0xD#4) : decode w = .res := by
  rw [decode, h]
  rfl

/-! ### The fault of a reserved opcode (45_reserved.md R111, R112) -/

theorem exec_rti (s : State) : exec .rti s = raiseFault (.invalidOpcode 0x8#4) s := rfl

theorem exec_res (s : State) : exec .res s = raiseFault (.invalidOpcode 0xD#4) s := rfl

/-- A fault leaves the state it is raised in, but for the run state (R115). -/
theorem raiseFault_eq (reason : FaultReason) (s : State) :
    raiseFault reason s = .fault (.fatal reason { s with runState := .faulted reason }) := rfl

/-! ### The statement -/

/-- Settles O36: the mask 0xF000 of both rows covers the opcode, and each row raises its fault in the state it is given. -/
theorem reservedOpcodesFault : Obligations.ReservedOpcodesFault :=
  ⟨fun _ h => decode_of_opcode_rti (fieldOpcode_of_match (by decide) h),
    fun _ h => decode_of_opcode_res (fieldOpcode_of_match (by decide) h),
    fun s => ⟨(exec_rti s).trans (raiseFault_eq _ s), (exec_res s).trans (raiseFault_eq _ s)⟩⟩

end Sys2Proof.Machine

/-!
SUPPORT. The fatal faults with the states they leave, the order of the host's answers, and its cancellations, and the
statements of 60_exceptions.md.
-/

namespace Sys2Proof.Machine

/-! ### The fatal faults (60_exceptions.md R113 to R115) -/

/-- A fatal fault of the instruction `i` in the state `s`: its reason and the faulted state, in which R7 is saved and bytes
are written where the instruction is a TRAP that raises the fault after that (R99, R108, R115). -/
inductive FatalFault (s : State) : (i : Instr) → FaultReason → State → Prop
  | rti : FatalFault s .rti (.invalidOpcode 0x8#4) (setRunState s (.faulted (.invalidOpcode 0x8#4)))
  | res : FatalFault s .res (.invalidOpcode 0xD#4) (setRunState s (.faulted (.invalidOpcode 0xD#4)))
  | undefinedVector {i : Instr} {v : BitVec 8}
      (row : (i = .trap v ∧ (v < 0x20#8 ∨ 0x25#8 < v)) ∨ i = .trapUndefined v) :
      FatalFault s i (.undefinedTrapVector v) (setRunState (trapEntry s) (.faulted (.undefinedTrapVector v)))
  | scan {i : Instr} {bad : Nat} (bytes : List Byte)
      (row : i = .puts ∨ i = .putsp ∨ i = .trap 0x22#8 ∨ i = .trap 0x24#8) (which : bad = 0xFE00 ∨ bad = 0x10000) :
      FatalFault s i (.stringScanOutOfRange bad)
        (setRunState (putBytes (trapEntry s) bytes) (.faulted (.stringScanOutOfRange bad)))

section
variable {s f : State} {reason : FaultReason}

/-- A character read goes on, waits or is cancelled. -/
theorem withChar_ne_fatal (s : State) (k : Word → State → State) : withChar s k ≠ .fault (.fatal reason f) := by
  rcases withChar_cases s k with ⟨_, _, e⟩ | ⟨_, _, e⟩ | ⟨_, e⟩ <;> rw [e] <;> exact nofun

theorem exec_getc_ne_fatal (s : State) : exec .getc s ≠ .fault (.fatal reason f) :=
  exec_getc s ▸ withChar_ne_fatal (trapEntry s) _

theorem exec_inp_ne_fatal (s : State) : exec .inp s ≠ .fault (.fatal reason f) :=
  exec_inp s ▸ withChar_ne_fatal (prompted s) _

theorem fatalFault_of_undefinedVector {i : Instr} {v : BitVec 8}
    (row : (i = .trap v ∧ (v < 0x20#8 ∨ 0x25#8 < v)) ∨ i = .trapUndefined v)
    (e : exec i s = .fault (.fatal reason f)) : FatalFault s i reason f := by
  have raised : exec i s = raiseFault (.undefinedTrapVector v) (trapEntry s) := by
    rcases row with ⟨rfl, undefined⟩ | rfl
    · rw [exec_trap_of_undefined undefined, exec_trapUndefined]
    · exact exec_trapUndefined v s
  cases raised.symm.trans e
  exact .undefinedVector row

theorem fatalFault_of_string_routine {i : Instr}
    (row : i = .puts ∨ i = .putsp ∨ i = .trap 0x22#8 ∨ i = .trap 0x24#8) (e : exec i s = .fault (.fatal reason f)) :
    FatalFault s i reason f := by
  obtain ⟨bytesOf, routine⟩ := exec_string_routine row s
  rw [routine] at e
  rcases stringAt_or_badStringAt s (readReg s 0#3) with ⟨_, string⟩ | ⟨_, _, badString⟩
  · nomatch (putString_of_stringAt bytesOf string).symm.trans e
  · have ⟨_, _, which⟩ := badString
    cases (putString_of_badStringAt bytesOf badString).symm.trans e
    exact .scan _ row which

/-- TRAP is told apart by its vector, under which it is one of the rows that the other cases are about. -/
theorem fatalFault_of_exec {i : Instr} (e : exec i s = .fault (.fatal reason f)) : FatalFault s i reason f := by
  cases i
  case addReg | addImm | andReg | andImm | not | lea | ld | ldi | ldr | st | sti | str | br | jmp | ret | jsr | jsrr |
      out | halt => nomatch e
  case rti => cases e; exact .rti
  case res => cases e; exact .res
  case trapUndefined => exact fatalFault_of_undefinedVector (.inr rfl) e
  case puts => exact fatalFault_of_string_routine (.inl rfl) e
  case putsp => exact fatalFault_of_string_routine (.inr (.inl rfl)) e
  case getc => exact absurd e (exec_getc_ne_fatal s)
  case inp => exact absurd e (exec_inp_ne_fatal s)
  case trap v =>
    by_cases undefined : v < 0x20#8 ∨ 0x25#8 < v
    · exact fatalFault_of_undefinedVector (.inl ⟨rfl, undefined⟩) e
    · obtain ⟨low, high⟩ := not_or.mp undefined
      rcases vector_cases (BitVec.not_lt.mp low) (BitVec.not_lt.mp high) with rfl | rfl | rfl | rfl | rfl | rfl
      · exact absurd e (exec_getc_ne_fatal s)
      · nomatch e
      · exact fatalFault_of_string_routine (.inr (.inr (.inl rfl))) e
      · exact absurd e (exec_inp_ne_fatal s)
      · exact fatalFault_of_string_routine (.inr (.inr (.inr rfl))) e
      · nomatch e

end

/-- Settles O37: each of the fatal faults leaves PC, memory and COND as they were. -/
theorem onlyListedFaults : Obligations.OnlyListedFaults := by
  intro i s f reason e
  cases fatalFault_of_exec e with
  | rti => exact ⟨rfl, rfl, rfl, rfl, .inl ⟨rfl, rfl⟩⟩
  | res => exact ⟨rfl, rfl, rfl, rfl, .inr (.inl ⟨rfl, rfl⟩)⟩
  | undefinedVector row => exact ⟨rfl, rfl, rfl, rfl, .inr (.inr (.inl ⟨_, row, rfl⟩))⟩
  | scan _ row which =>
    exact ⟨rfl, rfl, rfl, rfl, .inr (.inr (.inr ⟨row, which.imp (congrArg _) (congrArg _)⟩))⟩

/-! ### The order of the host's answers (60_exceptions.md R127) -/

theorem nextKey_of_keys {h : HostSide} {k : Bool} {ks : List Bool} (listed : h.keys = k :: ks) : nextKey h = k := by
  rw [nextKey, listed, List.headD_cons]

theorem nextChar_of_chars {h : HostSide} {c : Word} {cs : List Word} (listed : h.chars = c :: cs) : nextChar h = c := by
  rw [nextChar, listed, List.headD_cons]

theorem hostWaits_of_chars {h : HostSide} {c : Word} {cs : List Word} (listed : h.chars = c :: cs) :
    hostWaits h = false := by
  rw [hostWaits, listed, List.isEmpty_cons, Bool.and_false]

/-- A poll takes one answer, whichever it is. -/
theorem keyboardPoll_keys (s : State) : (keyboardPoll s).host.keys = s.host.keys.tail := by
  rw [keyboardPoll_host]
  split <;> rfl

theorem keyboardPoll_chars_found {s : State} (h : nextKey s.host = true) :
    (keyboardPoll s).host.chars = s.host.chars.tail := by
  rw [keyboardPoll_host_found h]
  rfl

theorem charRead_chars (s : State) (bs : List Byte) : (charRead s bs).host.chars = s.host.chars.tail := rfl

/-- Settles O40: an answer or a character taken is the head of its list and leaves the tail, and a host with a character
listed does not wait. -/
theorem hostAnswersInOrder : Obligations.HostAnswersInOrder := by
  refine fun s => ⟨fun k ks listed => ⟨nextKey_of_keys listed, ?poll⟩,
    fun c cs listed => ⟨nextChar_of_chars listed, fun key => ?found, fun t e => ?getc, fun t e => ?inp⟩⟩
  case poll => rw [keyboardPoll_keys, listed, List.tail_cons]
  case found => rw [keyboardPoll_chars_found key, listed, List.tail_cons]
  case getc =>
    cases (exec_getc_supplied (hostWaits_of_chars listed)).symm.trans e
    rw [charRead_chars, listed, List.tail_cons]
  case inp =>
    cases (exec_inp_supplied (hostWaits_of_chars listed)).symm.trans e
    rw [charRead_chars, listed, List.tail_cons]

/-! ### The host's cancellation (60_exceptions.md R118, R119) -/

section
variable {s : State}

theorem step_of_cancels (run : s.runState = .running) (cancel : cancelsHere s.host = true) :
    step s = .next (cancelRun s) := by
  rw [step, if_pos run, if_pos cancel]

theorem withChar_cancelled {n : Nat} (k : Word → State → State) (wait : hostWaits s.host = true)
    (later : s.host.cancelIn = some n) : withChar s k = .next (cancelRun s) := by
  rw [withChar, if_pos wait, waitForCharacter, later]

end

/-- Settles O44: at a boundary nothing has run, and in a wait only the trap entry has, and IN's prompt. -/
theorem hostCancels : Obligations.HostCancels :=
  ⟨fun _ run now => step_of_cancels run (beq_iff_eq.mpr now), fun s _ wait later =>
    ⟨⟨_, (exec_getc s).trans (withChar_cancelled _ wait later),
        putBytes_nil (trapEntry s) ▸ trapWrites_setRunState s [] .cancelled⟩,
      ⟨_, (exec_inp s).trans (withChar_cancelled _ wait later),
        trapWrites_setRunState s Config.inPrompt .cancelled⟩⟩⟩

end Sys2Proof.Machine

/-!
SUPPORT. An image as bytes and back, the placement of its words, and what a launch builds, and the statements of
70_reset_and_hazards.md.
-/

namespace Sys2Proof.Machine

/-! ### A word as two bytes (70_reset_and_hazards.md R132) -/

theorem bigEndian_toNat (hi lo : Byte) : (bigEndian hi lo).toNat = hi.toNat * 256 + lo.toNat := by
  rw [bigEndian, BitVec.toNat_append, ← Nat.shiftLeft_add_eq_or_of_lt lo.isLt, Nat.shiftLeft_eq]

theorem highByte_toNat (w : Word) : (highByte w).toNat = w.toNat / 256 := by
  rw [highByte_eq_ofNat]
  bv_omega

theorem lowByte_toNat (w : Word) : (lowByte w).toNat = w.toNat % 256 := by
  rw [lowByte_eq_setWidth, BitVec.toNat_setWidth]

theorem toNat_eq_highByte_lowByte (w : Word) : w.toNat = (highByte w).toNat * 256 + (lowByte w).toNat := by
  rw [highByte_toNat, lowByte_toNat, Nat.div_add_mod']

theorem bytesOfWord_eq (w : Word) : bytesOfWord w = [highByte w, lowByte w] := rfl

theorem bigEndian_highByte_lowByte (w : Word) : bigEndian (highByte w) (lowByte w) = w :=
  BitVec.eq_of_toNat_eq ((bigEndian_toNat _ _).trans (toNat_eq_highByte_lowByte w).symm)

theorem bytesOfWord_bigEndian (hi lo : Byte) : bytesOfWord (bigEndian hi lo) = [hi, lo] := by
  have word := bigEndian_toNat hi lo
  have high : highByte (bigEndian hi lo) = hi := BitVec.eq_of_toNat_eq (by rw [highByte_toNat]; omega)
  have low : lowByte (bigEndian hi lo) = lo := BitVec.eq_of_toNat_eq (by rw [lowByte_toNat]; omega)
  rw [bytesOfWord_eq, high, low]

/-! ### The words of a byte sequence (70_reset_and_hazards.md R132, R135) -/

theorem wordsOfBytes_flatMap (ws : List Word) : wordsOfBytes (ws.flatMap bytesOfWord) = some ws := by
  induction ws with
  | nil => rfl
  | cons w ws ih =>
    rw [List.flatMap_cons, bytesOfWord_eq, List.cons_append, List.cons_append, List.nil_append, wordsOfBytes, ih,
      bigEndian_highByte_lowByte, Option.map_some]

theorem wordsOfBytes_eq_some {bs : List Byte} {ws : List Word} :
    wordsOfBytes bs = some ws ↔ bs = ws.flatMap bytesOfWord := by
  refine ⟨fun h => ?_, fun h => h ▸ wordsOfBytes_flatMap ws⟩
  induction bs using wordsOfBytes.induct generalizing ws with
  | case1 =>
    cases h
    rfl
  | case2 => nomatch h
  | case3 hi lo rest ih =>
    obtain ⟨ws, words, rfl⟩ := Option.map_eq_some_iff.mp h
    rw [List.flatMap_cons, bytesOfWord_bigEndian, ← ih words, List.cons_append, List.cons_append, List.nil_append]

theorem wordsOfBytes_eq_none {bs : List Byte} : wordsOfBytes bs = none ↔ bs.length % 2 = 1 := by
  induction bs using wordsOfBytes.induct with
  | case1 => exact iff_of_false nofun nofun
  | case2 => exact iff_of_true rfl rfl
  | case3 hi lo rest ih =>
    rw [wordsOfBytes, Option.map_eq_none_iff, ih, List.length_cons, List.length_cons, Nat.add_assoc, Nat.add_mod_right]

theorem length_flatMap_bytesOfWord (ws : List Word) : (ws.flatMap bytesOfWord).length = 2 * ws.length := by
  induction ws with
  | nil => rfl
  | cons w ws ih =>
    rw [List.flatMap_cons, List.length_append, ih, List.length_cons, Nat.mul_succ, Nat.add_comm]
    rfl

/-- Word `k` stands in the bytes `2 * k` and `2 * k + 1`, its high byte first. -/
theorem flatMap_bytesOfWord_at {ws : List Word} {k : Nat} (h : k < ws.length) :
    (ws.flatMap bytesOfWord).getD (2 * k) 0x00#8 = highByte ws[k] ∧
    (ws.flatMap bytesOfWord).getD (2 * k + 1) 0x00#8 = lowByte ws[k] := by
  induction ws generalizing k with
  | nil => nomatch h
  | cons w ws ih =>
    cases k with
    | zero => exact ⟨rfl, rfl⟩
    | succ k => exact ih (Nat.lt_of_succ_lt_succ h)

/-! ### An image as bytes (70_reset_and_hazards.md R132, R135) -/

/-- The words of the image end inside memory (R135). -/
def Image.Fits (i : Image) : Prop := i.origin.toNat + i.words.length ≤ Config.memoryEnd

theorem bytesOfImage_eq (i : Image) :
    bytesOfImage i = highByte i.origin :: lowByte i.origin :: i.words.flatMap bytesOfWord := rfl

theorem parseImage_of_words {hi lo : Byte} {rest : List Byte} {ws : List Word} (h : wordsOfBytes rest = some ws) :
    parseImage (hi :: lo :: rest) =
      if Config.memoryEnd < (bigEndian hi lo).toNat + ws.length then .error .pastMemoryEnd
      else .ok ⟨bigEndian hi lo, ws⟩ := by
  rw [parseImage, h]

theorem parseImage_of_odd {hi lo : Byte} {rest : List Byte} (h : rest.length % 2 = 1) :
    parseImage (hi :: lo :: rest) = .error .oddLength := by
  rw [parseImage, wordsOfBytes_eq_none.mpr h]

theorem parseImage_bytesOfImage {i : Image} (fits : i.Fits) : parseImage (bytesOfImage i) = .ok i := by
  rw [bytesOfImage_eq, parseImage_of_words (wordsOfBytes_flatMap i.words), bigEndian_highByte_lowByte,
    if_neg (Nat.not_lt.mpr fits)]

/-- The byte sequences that parse are those of the images that fit, and each gives back its image. -/
theorem parseImage_eq_ok {b : List Byte} {i : Image} : parseImage b = .ok i ↔ b = bytesOfImage i ∧ i.Fits := by
  refine ⟨fun h => ?_, fun ⟨bytes, fits⟩ => bytes ▸ parseImage_bytesOfImage fits⟩
  match b with
  | [] | [_] => nomatch h
  | hi :: lo :: rest =>
    cases words : wordsOfBytes rest with
    | none => nomatch (parseImage_of_odd (wordsOfBytes_eq_none.mp words)).symm.trans h
    | some ws =>
      rw [parseImage_of_words words] at h
      split_ifs at h with past
      cases h
      rw [bytesOfImage, bytesOfWord_bigEndian, ← wordsOfBytes_eq_some.mp words]
      exact ⟨rfl, Nat.le_of_not_lt past⟩

/-- Settles O56: what parses is the bytes of the image it gives, and those are read back to it. -/
theorem imageFormat : Obligations.ImageFormat := by
  refine ⟨fun hi lo rest i parsed => ?_, fun i => parseImage_bytesOfImage⟩
  obtain ⟨bytes, _⟩ := parseImage_eq_ok.mp parsed
  obtain ⟨rfl, rfl, rfl⟩ := bytesOfImage_eq i ▸ bytes
  refine ⟨toNat_eq_highByte_lowByte i.origin, (length_flatMap_bytesOfWord i.words).symm, fun k h => ?_⟩
  obtain ⟨high, low⟩ := flatMap_bytesOfWord_at h
  rw [high, low]
  exact toNat_eq_highByte_lowByte i.words[k]

/-- Where no byte is left over, an image is refused exactly if its words would run past the end of memory. -/
theorem parseImage_refuses_words {hi lo : Byte} {rest : List Byte} {ws : List Word} (h : wordsOfBytes rest = some ws) :
    (∃ e, parseImage (hi :: lo :: rest) = .error e) ↔
      Config.memoryEnd < hi.toNat * 256 + lo.toNat + ws.length := by
  rw [parseImage_of_words h, bigEndian_toNat]
  split_ifs with past
  · exact iff_of_true ⟨_, rfl⟩ past
  · exact iff_of_false nofun past

/-- Settles O57, by the two bytes of the origin and whether the bytes after them are whole words. -/
theorem malformedImagesRefused : Obligations.MalformedImagesRefused := by
  intro b
  match b with
  | [] | [_] => exact iff_of_true ⟨_, rfl⟩ (.inl (by simp))
  | hi :: lo :: rest =>
    rw [List.length_cons, List.length_cons]
    cases words : wordsOfBytes rest with
    | none =>
      have odd : rest.length % 2 = 1 := wordsOfBytes_eq_none.mp words
      exact iff_of_true ⟨_, parseImage_of_odd odd⟩ (.inr (.inl (by omega)))
    | some ws =>
      have length : rest.length = 2 * ws.length :=
        wordsOfBytes_eq_some.mp words ▸ length_flatMap_bytesOfWord ws
      have half : rest.length / 2 = ws.length := by omega
      rw [parseImage_refuses_words words, ← half]
      constructor
      · exact fun past => .inr (.inr ⟨hi, lo, rest, rfl, past⟩)
      · rintro (short | odd | ⟨_, _, _, same, past⟩)
        · omega
        · omega
        · cases same
          exact past

/-! ### The placement of an image (70_reset_and_hazards.md R133) -/

theorem memLookup_placeWords_outside (m : Memory) {a b : Nat} {ws : List Word} (h : b < a ∨ a + ws.length ≤ b) :
    memLookup (placeWords m a ws) b = memLookup m b := by
  induction ws generalizing m a with
  | nil => rfl
  | cons w ws ih =>
    rw [List.length_cons] at h
    rw [placeWords, ih _ (by omega), memLookup_store_other m w (by omega)]

theorem memLookup_placeWords_inside (m : Memory) (a : Nat) {ws : List Word} {k : Nat} (h : k < ws.length) :
    memLookup (placeWords m a ws) (a + k) = ws[k] := by
  induction ws generalizing m a k with
  | nil => nomatch h
  | cons w ws ih =>
    cases k with
    | zero =>
      rw [placeWords, memLookup_placeWords_outside _ (.inl (by omega))]
      exact memLookup_store_same m a w
    | succ k =>
      rw [placeWords, ← Nat.succ_add_eq_add_succ a k]
      exact ih _ _ (Nat.lt_of_succ_lt_succ h)

theorem wf_placeWords {m : Memory} {a : Nat} {ws : List Word} (h : Memory.wf m)
    (fits : a + ws.length ≤ Config.memoryEnd) : Memory.wf (placeWords m a ws) := by
  induction ws generalizing m a with
  | nil => exact h
  | cons w ws ih =>
    rw [List.length_cons] at fits
    exact ih (wf_memStore w h (by omega)) (by omega)

/-- The address lies outside the cells that the image covers (R133). -/
def Image.Misses (i : Image) (a : Nat) : Prop := a < i.origin.toNat ∨ i.origin.toNat + i.words.length ≤ a

theorem cell_loadImage_outside (s : State) {i : Image} {a : Word} (h : i.Misses a.toNat) :
    cell (loadImage s i) a = cell s a := memLookup_placeWords_outside s.mem h

theorem Image.Fits.toNat_address {i : Image} (fits : i.Fits) {k : Nat} (h : k < i.words.length) :
    (BitVec.ofNat 16 (i.origin.toNat + k)).toNat = i.origin.toNat + k :=
  Nat.mod_eq_of_lt (Nat.lt_of_lt_of_le (Nat.add_lt_add_left h _) fits)

theorem cell_loadImage_word (s : State) {i : Image} (fits : i.Fits) {k : Nat} (h : k < i.words.length) :
    cell (loadImage s i) (BitVec.ofNat 16 (i.origin.toNat + k)) = i.words[k] := by
  rw [cell, fits.toNat_address h]
  exact memLookup_placeWords_inside s.mem i.origin.toNat h

/-- Settles O58: the cells from the origin on hold the words, and `loadImage` writes no other field. -/
theorem imagePlacement : Obligations.ImagePlacement :=
  fun s _ fits => ⟨fun _ => cell_loadImage_word s fits, fun _ => cell_loadImage_outside s, rfl, rfl, rfl, rfl, rfl⟩

/-! ### What a launch builds (70_reset_and_hazards.md R131, R134, R136, R137) -/

/-- Loading succeeds on the bytes of images that all fit, and places them one after the other. -/
theorem loadImages_eq_ok {s t : State} {bs : List (List Byte)} :
    loadImages s bs = .ok t ↔
      ∃ is : List Image, bs = is.map bytesOfImage ∧ (∀ i ∈ is, i.Fits) ∧ t = is.foldl loadImage s := by
  constructor
  · intro h
    induction bs generalizing s with
    | nil =>
      cases h
      exact ⟨[], rfl, nofun, rfl⟩
    | cons b bs ih =>
      rw [loadImages] at h
      cases parsed : parseImage b with
      | error e =>
        rw [parsed] at h
        nomatch h
      | ok i =>
        rw [parsed] at h
        obtain ⟨bytes, fits⟩ := parseImage_eq_ok.mp parsed
        obtain ⟨is, rfl, allFit, placed⟩ := ih h
        exact ⟨i :: is, by rw [bytes, List.map_cons], List.forall_mem_cons.mpr ⟨fits, allFit⟩, placed⟩
  · rintro ⟨is, rfl, allFit, rfl⟩
    induction is generalizing s with
    | nil => rfl
    | cons i is ih =>
      obtain ⟨fits, allFit⟩ := List.forall_mem_cons.mp allFit
      rw [List.map_cons, loadImages, parseImage_bytesOfImage fits]
      exact ih allFit

theorem launch_nil (g : Vector Word 8) (h : HostSide) : launch g h [] = .error .noImage := rfl

/-- What a launch that succeeds has loaded. -/
theorem images_of_launch {g : Vector Word 8} {h : HostSide} {bs : List (List Byte)} {s : State}
    (started : launch g h bs = .ok s) :
    ∃ is : List Image, bs = is.map bytesOfImage ∧ (∀ i ∈ is, i.Fits) ∧
      s = is.foldl loadImage (State.initial g h) := by
  cases bs with
  | nil => nomatch started
  | cons b bs => exact loadImages_eq_ok.mp started

theorem launch_two {i j : Image} (g : Vector Word 8) (h : HostSide) (fitsI : i.Fits) (fitsJ : j.Fits) :
    launch g h [bytesOfImage i, bytesOfImage j] = .ok (loadImage (loadImage (State.initial g h) i) j) :=
  loadImages_eq_ok.mpr ⟨[i, j], rfl, by simp [fitsI, fitsJ], rfl⟩

/-- Images that fit change the memory only, and keep it in its canonical form. -/
theorem foldl_loadImage_frame {s : State} {is : List Image} (h : Memory.wf s.mem) (allFit : ∀ i ∈ is, i.Fits) :
    ∃ m, Memory.wf m ∧ is.foldl loadImage s = { s with mem := m } := by
  induction is generalizing s with
  | nil => exact ⟨s.mem, h, rfl⟩
  | cons i is ih =>
    obtain ⟨fits, allFit⟩ := List.forall_mem_cons.mp allFit
    exact ih (s := loadImage s i) (wf_placeWords h fits) allFit

/-- Settles O59: the second image is placed over the first, and the first over memory that holds 0x0000 everywhere. -/
theorem laterImageWins : Obligations.LaterImageWins := by
  intro g h i j fitsI fitsJ
  refine ⟨_, launch_two g h fitsI fitsJ, fun k => cell_loadImage_word _ fitsJ, fun k hk onlyFirst => ?_,
    fun a missesI missesJ => ?_⟩
  · have misses : j.Misses (BitVec.ofNat 16 (i.origin.toNat + k)).toNat :=
      (Image.Fits.toNat_address fitsI hk).symm ▸ onlyFirst
    rw [cell_loadImage_outside _ misses, cell_loadImage_word _ fitsI hk]
  · rw [cell_loadImage_outside _ missesJ, cell_loadImage_outside _ missesI, cell_initial]

/-- Settles O60: a launch that succeeds has loaded images that all fit, so none of its byte sequences is malformed, and
loading leaves the initial state but for its memory. -/
theorem launchStartState : Obligations.LaunchStartState := by
  refine ⟨fun g h images s started => ?_, launch_nil, fun g h images b e member refused => ?_⟩
  · obtain ⟨is, _, allFit, rfl⟩ := images_of_launch started
    obtain ⟨m, wf, loaded⟩ := foldl_loadImage_frame (s := State.initial g h) wf_nil allFit
    rw [loaded]
    exact ⟨rfl, rfl, rfl, rfl, rfl, rfl, wf⟩
  · cases started : launch g h images with
    | error e' => exact ⟨e', rfl⟩
    | ok s =>
      obtain ⟨is, rfl, allFit, _⟩ := images_of_launch started
      obtain ⟨i, hi, rfl⟩ := List.mem_map.mp member
      nomatch (parseImage_bytesOfImage (allFit i hi)).symm.trans refused

end Sys2Proof.Machine
